-- ==== Sys2Proof/Word.lean ====
section
/-! DEFINITION. The word types of the block. Every value of the spec is an unsigned integer of a stated width
(00_scope.md R10), bit 0 the least significant (R11), so each width of R8 and R31 is a bit vector. -/

namespace Sys2Proof

/-- A Symbol: 5 bits, 0 to 31 (00_scope.md R8 `SYM_W`). -/
abbrev Sym := BitVec 5

/-- The accumulator and a ChecksumValue: 40 bits (00_scope.md R8 `ACC_W`). -/
abbrev Acc := BitVec 40

/-- The part of the accumulator a step keeps: 35 bits (00_scope.md R8 `WIN_W`). -/
abbrev Window := BitVec 35

/-- A command word on `p_cmd[5:0]`: 6 bits (30_encoding.md R61). -/
abbrev Cmd := BitVec 6

end Sys2Proof
end

