-- ==== Sys2Proof/Config.lean ====
section
/-! DEFINITION. What is fixed for the machine. 10_state.md R26: "A model's configuration record for this block is
empty", and 00_scope.md R9 leaves no parameter open, so there is no configuration argument and no free value here:
only the seed, which reset and INIT share, and the spec's own labels (the generator constants, which a test could
show misprinted, stand in Machine/Operands.lean). -/

namespace Sys2Proof.Config

/-- `SEED`: the accumulator at the start of a computation (00_scope.md R8, 10_state.md R25). -/
def seed : Acc := 1

/-- The label of Unit P's command set (00_scope.md R2). No register of the block holds it. -/
def unitPLabel : String := "POLYMOD40-CMD v1"

/-- The label of Unit E's command set (00_scope.md R2). No register of the block holds it. -/
def unitELabel : String := "ENC8x5 v1"

end Sys2Proof.Config
end

