-- ==== Sys2Proof/Syntax.lean ====
section
/-! DEFINITION. Syntax: the block's three instructions (30_encoding.md R60, R64), the words its two ports carry, and
the lines of the assembler, pseudo-instructions among them (R70, R71). -/

namespace Sys2Proof

/-- The instructions of the block, one constructor per row of the opcode table (30_encoding.md R64). The operands have
the width of the ports, so no operand outside its domain is a term (60_exceptions.md R142, last clause but one). -/
inductive Instr where
  /-- `ABSORB v` (40_polymod.md R82). -/
  | absorb (v : Sym)
  /-- `INIT` (40_polymod.md R81). -/
  | init
  /-- `ENC x` (41_encode.md R110). -/
  | enc (x : Acc)
deriving DecidableEq, Repr

/-- The block's two units (00_scope.md R1); an instruction belongs to one of them. -/
inductive UnitName where
  | unitP
  | unitE
deriving DecidableEq, Repr

/-- An instruction as the hardware sees it: a command word on `p_cmd` (format P, 30_encoding.md R61) or a value on
`e_in` (format E, R62). No bit of the word says which: the port does (R60). -/
inductive PortWord where
  | onCmd (w : Cmd)
  | onEIn (x : Acc)
deriving DecidableEq, Repr

/-- A name the host gives to a sampled value (`CHK -> name`, 30_encoding.md R70). -/
abbrev Name := List Char

/-- The operand of an `ENC` line: a number, or a name given by an earlier `CHK -> name` (R70, R71 `ENC k`). -/
inductive EncOperand where
  | value (x : Nat)
  | named (n : Name)
deriving DecidableEq, Repr

/-- A line that is at most one command (30_encoding.md R70). Its operands are numbers of any size: the range check is
`Basic.wellFormed`. -/
inductive Basic where
  | init
  | absorb (v : Nat)
  | enc (x : EncOperand)
  /-- `CHK` or `CHK -> name`: the host samples `p_chk`; no command is presented. -/
  | chk (name : Option Name)
deriving DecidableEq, Repr

/-- A line of a program: a basic line or one of the three pseudo-instructions of 30_encoding.md R71. -/
inductive Line where
  | basic (b : Basic)
  | compute (s : List Nat)
  | seal (s : List Nat)
  | verify (t : List Nat)
deriving DecidableEq, Repr

end Sys2Proof
end

