-- ==== Sys2Proof/WellFormed.lean ====
section
/-! DEFINITION. Well-formedness. An `Instr` carries operands of the ports' widths and is always well formed
(10_state.md R32, R33). The checks with content are those on assembler lines, whose operands are unbounded numbers:
"The assembler refuses an operand outside its range; it never truncates one" (30_encoding.md R70). -/

namespace Sys2Proof

/-- `v` is a Symbol: "an integer in [0, 31]" (00_scope.md R8). -/
def symbolInRange (v : Nat) : Bool := decide (v < 32)

/-- `x` is a ChecksumValue: "strictly less than 2^40" (00_scope.md R8). -/
def checksumInRange (x : Nat) : Bool := decide (x < 2 ^ 40)

/-- Every operand of the instruction is in its domain. -/
def Instr.wellFormed : Instr → Bool
  | .absorb v => symbolInRange v.toNat
  | .init => true
  | .enc x => checksumInRange x.toNat

/-- The operand of an `ENC` line is in range; a name stands for a sampled `p_chk`, which is 40 bits. -/
def EncOperand.wellFormed : EncOperand → Bool
  | .value x => checksumInRange x
  | .named _ => true

/-- The line's operand is in range. -/
def Basic.wellFormed : Basic → Bool
  | .init => true
  | .absorb v => symbolInRange v
  | .enc x => x.wellFormed
  | .chk _ => true

/-- Every operand of the line is in range. -/
def Line.wellFormed : Line → Bool
  | .basic b => b.wellFormed
  | .compute s => s.all symbolInRange
  | .seal s => s.all symbolInRange
  | .verify t => t.all symbolInRange

end Sys2Proof
end

