-- ==== Sys2Proof/Decode.lean ====
section
/-! DEFINITION. The decoder, total on every word of both ports (30_encoding.md R64: "The decoder is total"), and the
encoder written from the same table. No word is illegal or reserved (R66); what is rejected, by name, is a NUMBER that
no word of the port can be (60_exceptions.md R142), never reduced to one that is. -/

namespace Sys2Proof

/-- One row of the complete map of 30_encoding.md R64. -/
structure OpcodeRow where
  mnemonic : String
  unit     : UnitName
  width    : Nat
  mask     : Nat
  pattern  : Nat
deriving DecidableEq, Repr

/-- The complete map (30_encoding.md R64). `pattern` is the column `match`. -/
def opcodeTable : List OpcodeRow :=
  [ ⟨"ABSORB", .unitP, 6, 0x20, 0x00⟩,
    ⟨"INIT", .unitP, 6, 0x20, 0x20⟩,
    ⟨"ENC", .unitE, 40, 0x0000000000, 0x0000000000⟩ ]

/-- "a word w selects the row when `(w AND mask) = match`" (30_encoding.md R64), on the port of the row's unit. -/
def OpcodeRow.selects (r : OpcodeRow) : PortWord → Bool
  | .onCmd w => r.unit == .unitP && w.toNat &&& r.mask == r.pattern
  | .onEIn x => r.unit == .unitE && x.toNat &&& r.mask == r.pattern

/-- The mnemonic of an instruction, as the opcode table spells it. -/
def Instr.mnemonic : Instr → String
  | .absorb _ => "ABSORB"
  | .init => "INIT"
  | .enc _ => "ENC"

/-- The unit that executes an instruction (30_encoding.md R60). -/
def Instr.unit : Instr → UnitName
  | .absorb _ => .unitP
  | .init => .unitP
  | .enc _ => .unitE

/-- Field `op` of format P: bit 5 (30_encoding.md R61). -/
def Cmd.op (w : Cmd) : Bool := w.getLsbD 5

/-- Field `sym` of format P: bits 4:0 (30_encoding.md R61). -/
def Cmd.sym (w : Cmd) : Sym := w.extractLsb' 0 5

/-- Format P: `op` = 0 is ABSORB of `sym`, `op` = 1 is INIT whatever `sym` is (30_encoding.md R61, R67). -/
def decodeCmd (w : Cmd) : Instr :=
  if Cmd.op w then .init else .absorb (Cmd.sym w)

/-- Format E: the whole word is the operand of ENC (30_encoding.md R62). -/
def decodeEIn (x : Acc) : Instr := .enc x

/-- The decoder, over the words of both ports. -/
def decode : PortWord → Instr
  | .onCmd w => decodeCmd w
  | .onEIn x => decodeEIn x

/-- Why a number is no word of a port. -/
inductive DecodeError where
  /-- The number does not fit the port's width; it is rejected and not truncated (60_exceptions.md R142). Safe. -/
  | tooWideForPort
deriving DecidableEq, Repr

/-- A number as a word of a unit's port: 6 bits on `p_cmd`, 40 bits on `e_in` (30_encoding.md R60). -/
def portWordOfNat (u : UnitName) (n : Nat) : Except DecodeError PortWord :=
  match u with
  | .unitP => if n < 2 ^ 6 then .ok (.onCmd (BitVec.ofNat 6 n)) else .error .tooWideForPort
  | .unitE => if n < 2 ^ 40 then .ok (.onEIn (BitVec.ofNat 40 n)) else .error .tooWideForPort

/-- The decoder over numbers: any number, rejected by name where it is no word of the port. -/
def decodeNat (u : UnitName) (n : Nat) : Except DecodeError Instr :=
  match portWordOfNat u n with
  | .ok w => .ok (decode w)
  | .error e => .error e

/-- The encoder: the word the assembler emits (30_encoding.md R70). INIT is the canonical `0x20` (R67), and the word
of `ABSORB v` is `v` with `op` = 0 above it. -/
def encode : Instr → PortWord
  | .absorb v => .onCmd (0#1 ++ v)
  | .init => .onCmd 0x20
  | .enc x => .onEIn x

/-- The word as a number. -/
def PortWord.toNat : PortWord → Nat
  | .onCmd w => w.toNat
  | .onEIn x => x.toNat

/-- The unit whose port carries the word. -/
def PortWord.unit : PortWord → UnitName
  | .onCmd _ => .unitP
  | .onEIn _ => .unitE

/-- The unit a table row of `nbits` bits belongs to: the row's width tells the two formats apart, 6 bits (one whole
byte) for format P and 40 bits for format E. DESIGN CHOICE, notes/assumptions/5.md: the hardware has no such number, its
ports are apart. -/
def unitOfBits (nbits : Nat) : Option UnitName :=
  if nbits ≤ 8 then some .unitP else if nbits ≤ 40 then some .unitE else none

/-- The port word of a table row's number; none for a number that no word of the port is. -/
def tableWord (nbits w : Nat) : Option PortWord :=
  match unitOfBits nbits with
  | none => none
  | some u => (portWordOfNat u w).toOption

/-- The instruction the decoder reads from a table row's word `w` of `nbits` bits. -/
def decodeTableWord (nbits w : Nat) : Option Instr :=
  (tableWord nbits w).map decode

end Sys2Proof
end

