-- ==== Sys2Proof/Machine/State.lean ====
section
/-! DEFINITION. The state. Unit P has one register, `c`, and nothing else in the block is state (10_state.md R20, R30,
R35). Beside it stand, as plain data, the level the host holds on `e_in` and what the host does next: the inputs of the
block, in order (notes/assumptions/1.md, 2.md). -/

namespace Sys2Proof.Machine

/-- One act of the host on the block's input ports (10_state.md R31, R33). -/
inductive HostEvent where
  /-- A rising edge of `clk` with the levels of `rst`, `p_valid` and `p_cmd` at it (R31). -/
  | edge (rst pValid : Bool) (pCmd : Cmd)
  /-- The host puts a value on `e_in`; Unit E has no clock and follows it (R33). -/
  | drive (x : Acc)
deriving DecidableEq, Repr

/-- The machine: the block's one register, and its inputs. -/
structure State where
  /-- The accumulator, Unit P's one register, 40 bits (10_state.md R20). -/
  c      : Acc
  /-- The level on the input port `e_in` (10_state.md R33); the host's, no register of the block. -/
  eIn    : Acc
  /-- What the host does next, oldest first. DESIGN CHOICE, notes/assumptions/1.md. -/
  inputs : List HostEvent
deriving DecidableEq, Repr

/-- The faults of the machine: none. "The block raises no synchronous exception" (60_exceptions.md R140), and "A model's
step function for this block has the type `State -> Command -> State` with no fault outcome" (R146). -/
inductive Fault where
deriving DecidableEq, Repr

/-- The refusals. No meaning and no step raises any of them: the last three are the assembler's and the boundary's. -/
inductive Refusal where
  /-- Raised by an arm of `exec` that has no meaning yet; there is none. Safe. -/
  | notModelled (mnemonic : String)
  /-- `refuse(domain)`: an operand outside its domain, at the model's boundary: raised by the assembler and by the
  functions over numbers, never by `exec` or `step` (60_exceptions.md R142, 42_host_protocol.md R132). Safe. -/
  | domain
  /-- Text that is no line of the assembler's syntax (30_encoding.md R70). Raised by the text reader. Safe. -/
  | badLine
  /-- `ENC name` where no `CHK -> name` has given the name a value. Raised by the assembler (R70). Safe. -/
  | unknownName
deriving DecidableEq, Repr

/-- The block before its first reset, for the unspecified value `u` of `c` (10_state.md R35): a claim about the unreset
block holds for every `u` (93_implementation_defined.md U4; notes/assumptions/7.md). -/
def State.unreset (u : Acc) : State :=
  { c := u, eIn := 0, inputs := [] }

/-- The machine right after reset: `c` = 1 (10_state.md R35, 70_reset_and_hazards.md R160). Reset gives `e_in` no level
(R164) and the host has presented nothing yet: DESIGN CHOICE, notes/assumptions/2.md and 1.md. -/
def State.reset : State :=
  { c := Config.seed, eIn := 0, inputs := [] }

end Sys2Proof.Machine
end

