-- ==== Sys2Proof/Machine/Flags.lean ====
section
/-! DEFINITION. Flags: none. "There are no flags, condition codes or predicates. No instruction records a carry, a zero,
an overflow or an error" (10_state.md R28), so this layer has nothing to define; it stands so that its absence is read
as the spec's and not as a gap. -/
end

