-- ==== Sys2Proof/Machine/Operands.lean ====
section
/-! DEFINITION. Operands: the hardwired constants, the fields an instruction takes out of the accumulator, and the
zero extension of a symbol, the only operand form the block has (30_encoding.md R63). -/

namespace Sys2Proof.Machine

/-- The hardwired generator table (00_scope.md R8, 10_state.md R24), as the spec prints it (notes/assumptions/19.md). -/
def generator (j : Fin 5) : Acc :=
  match j with
  | 0 => 0x98f2bc8e61
  | 1 => 0x79b76d99e2
  | 2 => 0xf33e5fb3c4
  | 3 => 0xae2eabe2a8
  | 4 => 0x1e4f43e470

/-- `FINAL_XOR` (00_scope.md R8, 10_state.md R25). -/
def finalXor : Acc := 1

/-- `zext_40(v)` (00_scope.md R13): the only extension the block uses. -/
def zext (v : Sym) : Acc := v.setWidth 40

/-- `c[39:35]`, "the 5 bits about to overflow a 35-bit window" (40_polymod.md R80 step 1, R82). -/
def top (c : Acc) : Sym := c.extractLsb' 35 5

/-- `c[34:0]`, the low 35 bits a step keeps (40_polymod.md R82). -/
def window (c : Acc) : Window := c.extractLsb' 0 35

/-- Cell `k` of the accumulator, `c[5k+4 : 5k]` (10_state.md R22). -/
def cell (c : Acc) (k : Nat) : Sym := c.extractLsb' (5 * k) 5

/-- Lane `i` of a 40-bit value, `x[39-5i : 35-5i]` (41_encode.md R110). -/
def lane (x : Acc) (i : Nat) : Sym := x.extractLsb' (35 - 5 * i) 5

end Sys2Proof.Machine
end

