-- ==== Sys2Proof/Machine/Ops.lean ====
section
/-! DEFINITION. The named operations: the accumulator's update, the result port, the lanes, reset, and the reads and
writes of State that every meaning goes through. No exception entry and no return from one stand here, because the
block has neither (60_exceptions.md R140, R146). -/

namespace Sys2Proof.Machine

/-! ### The accumulator's update (40_polymod.md R82) -/

/-- Step 2: shift the window left by 5 and inject the symbol, `(zext_40(c[34:0]) << 5)[39:0] XOR zext_40(v)`. -/
def shiftIn (c : Acc) (v : Sym) : Acc := ((window c).setWidth 40 <<< 5) ^^^ zext v

/-- One turn of step 3: `if top[j] = 1 then c2 <- c2 XOR GENERATOR[j]`. -/
def applyGenerator (t : Sym) (c2 : Acc) (j : Fin 5) : Acc :=
  if t.getLsbD j then c2 ^^^ generator j else c2

/-- Step 3: `for j in 0..4`. -/
def applyGenerators (t : Sym) (c1 : Acc) : Acc :=
  [0, 1, 2, 3, 4].foldl (applyGenerator t) c1

/-- The function `step(c, v)` of R82: `top` is taken from the old `c`. (The name `step` is the machine's.) -/
def stepAcc (c : Acc) (v : Sym) : Acc := applyGenerators (top c) (shiftIn c v)

/-- `F(t)`: the XOR of `GENERATOR[j]` over the set bits of `t` (40_polymod.md R88). -/
def feedback (t : Sym) : Acc := applyGenerators t 0

/-! ### The lanes (41_encode.md R110) -/

/-- Unit E's eight outputs, separate ports of 5 bits each (10_state.md R33). -/
structure Lanes where
  eSym0 : Sym
  eSym1 : Sym
  eSym2 : Sym
  eSym3 : Sym
  eSym4 : Sym
  eSym5 : Sym
  eSym6 : Sym
  eSym7 : Sym
deriving DecidableEq, Repr

/-- The EncodedChecksum: the lanes in position order (41_encode.md R110, R116). -/
def Lanes.toList (l : Lanes) : List Sym :=
  [l.eSym0, l.eSym1, l.eSym2, l.eSym3, l.eSym4, l.eSym5, l.eSym6, l.eSym7]

/-- `encode(x)` (41_encode.md R110): most significant group first. -/
def encodeLanes (x : Acc) : Lanes :=
  { eSym0 := lane x 0, eSym1 := lane x 1, eSym2 := lane x 2, eSym3 := lane x 3,
    eSym4 := lane x 4, eSym5 := lane x 5, eSym6 := lane x 6, eSym7 := lane x 7 }

/-! ### Reads and writes of State -/

/-- `c <- v` (00_scope.md R14): the only write of the register. -/
def State.setC (s : State) (v : Acc) : State := { s with c := v }

/-- The host's level on `e_in` becomes `x`. -/
def State.setEIn (s : State) (x : Acc) : State := { s with eIn := x }

/-- The host's remaining acts. -/
def State.setInputs (s : State) (evs : List HostEvent) : State := { s with inputs := evs }

/-- The host's next act is `ev`, before what it was to do. -/
def State.present (s : State) (ev : HostEvent) : State := s.setInputs (ev :: s.inputs)

/-- The output port `p_chk = c XOR 1`, at all times (40_polymod.md R83). -/
def State.pChk (s : State) : Acc := s.c ^^^ finalXor

/-- The output ports `e_sym0..7`, a function of `e_in` alone (10_state.md R33). -/
def State.lanes (s : State) : Lanes := encodeLanes s.eIn

/-- What a host that wires `p_chk` to `e_in` reads on the lanes (42_host_protocol.md R128; notes/assumptions/18.md). -/
def State.wiredLanes (s : State) : Lanes := encodeLanes s.pChk

/-! ### Reset and hold -/

/-- Reset: `c <- 1`, and nothing else in the block is state (70_reset_and_hazards.md R160, R164). -/
def resetUnitP (s : State) : State := s.setC Config.seed

/-- An edge without command or reset: `c` keeps its value (70_reset_and_hazards.md R162). -/
def hold (s : State) : State := s

end Sys2Proof.Machine
end

