-- ==== Sys2Proof/Machine/Encode.lean ====
section
/-! DEFINITION. Unit E's instruction (41_encode.md R110). -/

namespace Sys2Proof.Machine

/-- `ENC x`: the instruction is the value `x` present on `e_in` (30_encoding.md R60), so its lanes are `encode(x)` from
then on (`State.lanes`). No register of the block is read or written (41_encode.md R110; notes/assumptions/2.md). -/
def execEnc (x : Acc) (s : State) : Host.Outcome State Fault Refusal :=
  .next (s.setEIn x)

end Sys2Proof.Machine
end

