-- ==== Sys2Proof/Machine/Polymod.lean ====
section
/-! DEFINITION. Unit P's instructions (40_polymod.md R81, R82). -/

namespace Sys2Proof.Machine

/-- `INIT`: `c <- 1`; it does not read `c` (40_polymod.md R81). -/
def execInit (s : State) : Host.Outcome State Fault Refusal :=
  .next (s.setC Config.seed)

/-- `ABSORB v`: `c <- step(c, v)` (40_polymod.md R82). -/
def execAbsorb (v : Sym) (s : State) : Host.Outcome State Fault Refusal :=
  .next (s.setC (stepAcc s.c v))

end Sys2Proof.Machine
end

