-- ==== Sys2Proof/Machine/Dispatch.lean ====
section
/-! DEFINITION. Dispatch: one arm per constructor of Instr, each one direct call of its meaning. -/

namespace Sys2Proof.Machine

def exec (i : Instr) (s : State) : Host.Outcome State Fault Refusal :=
  match i with
  | .absorb v => Sys2Proof.Machine.execAbsorb v s
  | .init => Sys2Proof.Machine.execInit s
  | .enc x => Sys2Proof.Machine.execEnc x s

end Sys2Proof.Machine
end

