-- ==== Sys2Proof/Machine/Events.lean ====
section
/-! DEFINITION. What one act of the host does to the block: where a command is accepted, where it is ignored, and where
reset is performed. -/

namespace Sys2Proof.Machine

/-- The act that presents a word on its port: an accepted command, `p_valid` = 1 and `rst` = 0, or a value on `e_in`
(30_encoding.md R60). -/
def eventOfWord : PortWord → HostEvent
  | .onCmd w => .edge false true w
  | .onEIn x => .drive x

/-- One act of the host. At an edge with `rst` = 1, reset, whatever `p_valid` and `p_cmd` are (70_reset_and_hazards.md
R161); with `p_valid` = 0, nothing, whatever `p_cmd` is (30_encoding.md R68); with `p_valid` = 1 the command is executed
whole (20_memory.md R48). A value on `e_in` is Unit E's instruction (20_memory.md R49). -/
def handleEvent (ev : HostEvent) (s : State) : Host.Outcome State Fault Refusal :=
  match ev with
  | .edge true _ _ => .next (resetUnitP s)
  | .edge false false _ => .next (hold s)
  | .edge false true w => exec (decodeCmd w) s
  | .drive x => exec (decodeEIn x) s

/-- The next act of the host is taken from the list. With nothing presented the block holds (R162; notes/assumptions/3.md). -/
def takeInput (s : State) : Host.Outcome State Fault Refusal :=
  match s.inputs with
  | [] => .next (hold s)
  | ev :: rest => handleEvent ev (s.setInputs rest)

/-- The state in which a table row's word is the host's next act; a number that no word of the port is presents nothing
(notes/assumptions/5.md). -/
def presentTableWord (s : State) (nbits w : Nat) : State :=
  match tableWord nbits w with
  | some pw => s.present (eventOfWord pw)
  | none => s

end Sys2Proof.Machine
end

