-- ==== Sys2Proof/Machine/Step.lean ====
section
/-! DEFINITION. The step: one act of the host on the block's inputs. -/

namespace Sys2Proof.Machine

/-- One step of the machine (20_memory.md R48, R49; notes/assumptions/1.md). -/
def step (s : State) : Host.Outcome State Fault Refusal := takeInput s

/-- `s` with the instruction of a table row's word presented by the host next, before whatever it was to do. -/
def State.withFetchWord (s : State) (nbits w : Nat) : State := presentTableWord s nbits w

end Sys2Proof.Machine
end

