-- ==== Sys2Proof/Machine/Protocol.lean ====
section
/-! DEFINITION. The functions the rules name over whole sequences (00_scope.md R17), their boundary over numbers
(60_exceptions.md R142), and what the host does with them as far as the spec describes it (42_host_protocol.md). None of
this is an operation of the block. -/

namespace Sys2Proof.Machine

/-! ### `state` and `compute` (40_polymod.md R85, R86) -/

/-- `step(...step(c, s[0])..., s[n-1])`: the symbols absorbed position 0 first (20_memory.md R43). -/
def absorbAll (c : Acc) (s : List Sym) : Acc := s.foldl stepAcc c

/-- `state(s)`: the accumulator after INIT and the symbols of `s` in order (40_polymod.md R85). -/
def stateOf (s : List Sym) : Acc := absorbAll Config.seed s

/-- `compute(s) = state(s) XOR 1` (40_polymod.md R86). -/
def compute (s : List Sym) : Acc := stateOf s ^^^ finalXor

/-! ### The inverse forms -/

/-- `decode8(e) = {e0, e1, ..., e7}` (41_encode.md R113). Not an operation of the block. -/
def decode8 (e : Lanes) : Acc :=
  e.eSym0 ++ e.eSym1 ++ e.eSym2 ++ e.eSym3 ++ e.eSym4 ++ e.eSym5 ++ e.eSym6 ++ e.eSym7

/-- The second formulation of `encode`: take the low five bits, place them from the last position backward, shift right
by five, `n` times (41_encode.md R111). -/
def encodeByShifts : Nat → Acc → List Sym → List Sym
  | 0, _, out => out
  | n + 1, y, out => encodeByShifts n (y >>> 5) (y.extractLsb' 0 5 :: out)

/-- The `c` that ABSORB `v` takes to `c'` (40_polymod.md R92). -/
def unstepAcc (c' : Acc) (v : Sym) : Acc :=
  let t : Sym := c'.extractLsb' 0 5 ^^^ v
  t ++ ((c' ^^^ feedback t) >>> 5).extractLsb' 0 35

/-- `L(a) = step(a, 0)`, `n` times (40_polymod.md R90). -/
def linPow : Nat → Acc → Acc
  | 0, a => a
  | n + 1, a => linPow n (stepAcc a 0)

/-- `T(k)` for k = 0 to 39, as the spec prints it: the bits of `top` that enter bit k of `step(c, v)` (40_polymod.md
R94). -/
def tapTable : List (List Nat) :=
  [ [0], [1], [2], [3], [4],
    [0, 1, 3, 4], [0, 1, 2, 4], [1, 2, 3], [1, 2], [0, 2, 3],
    [0, 4], [0, 1], [1, 2], [2, 3, 4], [3, 4],
    [0, 1, 2, 3, 4], [1, 2, 3, 4], [2, 3, 4], [0, 1, 2], [0, 1, 2, 3],
    [0, 2], [0, 1, 3], [1, 2, 4], [0, 3], [1, 4],
    [0, 1, 2, 3, 4], [1, 2, 3, 4], [2, 3, 4], [0, 1, 2], [0, 1, 2, 3],
    [0, 4], [0, 1], [1, 2], [2, 3, 4], [3, 4],
    [0, 1, 3, 4], [0, 1, 2, 4], [1, 2, 3], [1, 2], [0, 2, 3] ]

/-! ### The boundary over numbers (60_exceptions.md R142) -/

/-- A number as a Symbol, refused and not masked outside [0, 31]. -/
def symbolOfNat (v : Nat) : Except Refusal Sym :=
  if symbolInRange v then .ok (BitVec.ofNat 5 v) else .error .domain

/-- A number as a ChecksumValue, refused and not truncated outside [0, 2^40). -/
def checksumOfNat (x : Nat) : Except Refusal Acc :=
  if checksumInRange x then .ok (BitVec.ofNat 40 x) else .error .domain

/-- A list of numbers as a SymbolSequence, refused as a whole if one of them is no Symbol. -/
def symbolsOfNats : List Nat → Except Refusal (List Sym)
  | [] => .ok []
  | v :: vs =>
    match symbolOfNat v with
    | .error r => .error r
    | .ok a =>
      match symbolsOfNats vs with
      | .error r => .error r
      | .ok as => .ok (a :: as)

/-- `compute` over numbers. -/
def computeNat (s : List Nat) : Except Refusal Acc :=
  match symbolsOfNats s with
  | .error r => .error r
  | .ok a => .ok (compute a)

/-- `encode` over a number. -/
def encodeNat (x : Nat) : Except Refusal Lanes :=
  match checksumOfNat x with
  | .error r => .error r
  | .ok a => .ok (encodeLanes a)

/-! ### The host's sequences (42_host_protocol.md R126, R127) -/

/-- The eight placeholders. -/
def placeholders : List Sym := List.replicate 8 0

/-- One symbol per prefix character, "each character's lower 5 bits": the character code AND 31 (R126;
notes/assumptions/17.md). -/
def prefixSymbols (codes : List Nat) : List Sym := codes.map (BitVec.ofNat 5)

/-- `P ++ [0] ++ D`: everything but the placeholders (R126, R127). -/
def hostSequence (codes : List Nat) (payload : List Sym) : List Sym :=
  prefixSymbols codes ++ [0] ++ payload

/-- The checksum the host embeds: `compute(s ++ [0]*8)` (R127). -/
def sealValue (s : List Sym) : Acc := compute (s ++ placeholders)

/-- The sealed sequence `s ++ encode(k)`: the placeholders substituted with the encoded symbols (R127). -/
def sealedSequence (s : List Sym) : List Sym := s ++ (encodeLanes (sealValue s)).toList

/-! ### Programs as inputs (20_memory.md R48) -/

/-- The acts of a host that presents the instructions in order. -/
def eventsOf (prog : List Instr) : List HostEvent := prog.map fun i => eventOfWord (encode i)

/-- `INIT; ABSORB s[0]; ...; ABSORB s[n-1]` (40_polymod.md R85). -/
def computeProgram (s : List Sym) : List Instr := .init :: s.map .absorb

/-- The symbols absorbed since the last INIT or reset, after one more act of the host; `s` are those before it. The
block keeps no such record (10_state.md R30); the statements about a computation (00_scope.md R19) do. -/
def trackSymbols (s : List Sym) : HostEvent → List Sym
  | .edge true _ _ => []
  | .edge false false _ => s
  | .edge false true w =>
    match decodeCmd w with
    | .absorb v => s ++ [v]
    | .init => []
    | .enc _ => s
  | .drive _ => s

end Sys2Proof.Machine
end

