-- ==== Sys2Proof/Machine/Assembler.lean ====
section
/-! DEFINITION. The assembler and the host that runs its programs: the expansion of the pseudo-instructions, the words
each line emits, the reading and printing of text (30_encoding.md R70, R71), and a session in which the host presents
the lines one after another and samples the outputs (42_host_protocol.md). -/

namespace Sys2Proof.Machine

/-! ### Expansion (30_encoding.md R71) -/

/-- The name `SEAL` samples into, as R71 writes it. -/
def sealName : Name := ['k']

/-- `COMPUTE s` is `INIT; ABSORB s0; ...; CHK`; `SEAL s` adds eight `ABSORB 0`, samples into `k` and encodes `k`;
`VERIFY t` is `COMPUTE t`. -/
def expandLine : Line → List Basic
  | .basic b => [b]
  | .compute s => .init :: s.map .absorb ++ [.chk none]
  | .seal s =>
    .init :: s.map .absorb ++ List.replicate 8 (.absorb 0) ++ [.chk (some sealName), .enc (.named sealName)]
  | .verify t => .init :: t.map .absorb ++ [.chk none]

/-! ### Words (30_encoding.md R70) -/

/-- The values the host has given names to, newest first. -/
abbrev Names := List (Name × Acc)

/-- The value of a name: its newest one (notes/assumptions/11.md). -/
def lookupName (names : Names) (n : Name) : Except Refusal Acc :=
  match names with
  | [] => .error .unknownName
  | (m, x) :: rest => if m = n then .ok x else lookupName rest n

/-- The operand of an `ENC` line. -/
def resolveEnc (names : Names) : EncOperand → Except Refusal Acc
  | .value x => checksumOfNat x
  | .named n => lookupName names n

/-- The instruction a basic line stands for: none for `CHK`, a refusal for an operand outside its range (R70). -/
def basicInstr (names : Names) : Basic → Except Refusal (Option Instr)
  | .init => .ok (some .init)
  | .absorb v =>
    match symbolOfNat v with
    | .ok a => .ok (some (.absorb a))
    | .error r => .error r
  | .enc x =>
    match resolveEnc names x with
    | .ok a => .ok (some (.enc a))
    | .error r => .error r
  | .chk _ => .ok none

/-- The words a basic line emits: `CHK` emits nothing (R70). -/
def basicWords (names : Names) (b : Basic) : Except Refusal (List PortWord) :=
  match basicInstr names b with
  | .ok (some i) => .ok [encode i]
  | .ok none => .ok []
  | .error r => .error r

/-! ### A host's session -/

/-- A host with one instance of the block: what it has named and what it has sampled. Only `block` is the machine. -/
structure Session where
  block   : State
  names   : Names
  /-- The values of `p_chk` sampled by `CHK`, oldest first. -/
  samples : List Acc
  /-- The lanes read after each `ENC`, oldest first. -/
  lanes   : List Lanes
deriving DecidableEq, Repr

/-- A host that has sampled nothing yet. -/
def Session.start (s : State) : Session := { block := s, names := [], samples := [], lanes := [] }

/-- `CHK`: the host samples `p_chk`; not a step, and no state of the block changes (40_polymod.md R83). -/
def Session.sample (h : Session) (name : Option Name) : Session :=
  { h with
    samples := h.samples ++ [h.block.pChk]
    names := match name with
      | none => h.names
      | some n => (n, h.block.pChk) :: h.names }

/-- The host reads the lanes while `e_in` is held (70_reset_and_hazards.md R169). -/
def Session.readLanes (h : Session) : Session := { h with lanes := h.lanes ++ [h.block.lanes] }

/-- The host presents one instruction next, and the machine makes the step that runs it. -/
def Session.issue (h : Session) (i : Instr) : Host.Outcome Session Fault Refusal :=
  match step (h.block.present (eventOfWord (encode i))) with
  | .next t => .next { h with block := t }
  | .fault f => .fault f
  | .refused r => .refused r

/-- One basic line: its instruction is issued; `CHK` samples, and after `ENC` the lanes are read. -/
def runBasic (b : Basic) (h : Session) : Host.Outcome Session Fault Refusal :=
  match b with
  | .chk name => .next (h.sample name)
  | .init => h.issue .init
  | .absorb v =>
    match symbolOfNat v with
    | .ok a => h.issue (.absorb a)
    | .error r => .refused r
  | .enc x =>
    match resolveEnc h.names x with
    | .ok a =>
      match h.issue (.enc a) with
      | .next g => .next g.readLanes
      | .fault f => .fault f
      | .refused r => .refused r
    | .error r => .refused r

/-- How lines end: the session they leave, with the block as everything presented has left it, and the refusal that
stopped them, if one did. -/
structure LineEnd where
  session : Session
  stop    : Option Refusal
deriving DecidableEq, Repr

/-- The end as an outcome: it goes on with the session left, unless a refusal stopped it. -/
def LineEnd.outcome (e : LineEnd) : Host.Outcome Session Fault Refusal :=
  match e.stop with
  | none => .next e.session
  | some r => .refused r

/-- Basic lines, in order, up to the first that is refused. (No step faults: `Fault` has no constructor.) -/
def endBasics : List Basic → Session → LineEnd
  | [], h => { session := h, stop := none }
  | b :: bs, h =>
    match runBasic b h with
    | .next g => endBasics bs g
    | .refused r => { session := h, stop := some r }
    | .fault f => nomatch f

/-- Basic lines, in order. -/
def runBasics (bs : List Basic) (h : Session) : Host.Outcome Session Fault Refusal := (endBasics bs h).outcome

/-- How one line ends: refused before anything is presented, the session left as it was, if an operand is out of range
(30_encoding.md R70, 42_host_protocol.md R132; notes/assumptions/9.md), else as its expansion ends. -/
def endLine (l : Line) (h : Session) : LineEnd :=
  if l.wellFormed then endBasics (expandLine l) h else { session := h, stop := some .domain }

/-- One line. -/
def runLine (l : Line) (h : Session) : Host.Outcome Session Fault Refusal := (endLine l h).outcome

/-- A program: a straight line of lines (30_encoding.md R72). -/
def runLines : List Line → Session → Host.Outcome Session Fault Refusal
  | [], h => .next h
  | l :: ls, h =>
    match runLine l h with
    | .next g => runLines ls g
    | .fault f => .fault f
    | .refused r => .refused r

/-! ### Reading text (30_encoding.md R70; notes/assumptions/10.md) -/

/-- "`;` starts a comment". -/
def stripComment (cs : List Char) : List Char := cs.takeWhile fun ch => ch != ';'

/-- The words of a line, separated by spaces or tabs; `cur` is the word being read, reversed. -/
def splitWords : List Char → List Char → List (List Char)
  | [], [] => []
  | [], cur => [cur.reverse]
  | ch :: rest, cur =>
    if ch = ' ' ∨ ch = '\t' then
      match cur with
      | [] => splitWords rest []
      | _ => cur.reverse :: splitWords rest []
    else splitWords rest (ch :: cur)

/-- The lines of a text; `cur` is the line being read, reversed. -/
def splitLines : List Char → List Char → List (List Char)
  | [], cur => [cur.reverse]
  | ch :: rest, cur =>
    if ch = '\n' then cur.reverse :: splitLines rest [] else splitLines rest (ch :: cur)

/-- The value of a decimal digit. -/
def decDigit (ch : Char) : Option Nat :=
  if '0'.toNat ≤ ch.toNat ∧ ch.toNat ≤ '9'.toNat then some (ch.toNat - '0'.toNat) else none

/-- The value of a hexadecimal digit, of either case. -/
def hexDigit (ch : Char) : Option Nat :=
  if '0'.toNat ≤ ch.toNat ∧ ch.toNat ≤ '9'.toNat then some (ch.toNat - '0'.toNat)
  else if 'a'.toNat ≤ ch.toNat ∧ ch.toNat ≤ 'f'.toNat then some (ch.toNat - 'a'.toNat + 10)
  else if 'A'.toNat ≤ ch.toNat ∧ ch.toNat ≤ 'F'.toNat then some (ch.toNat - 'A'.toNat + 10)
  else none

/-- Digits of base `b`, most significant first, after the value `acc`. -/
def readDigits (b : Nat) (digit : Char → Option Nat) : Nat → List Char → Option Nat
  | acc, [] => some acc
  | acc, ch :: rest =>
    match digit ch with
    | some d => readDigits b digit (b * acc + d) rest
    | none => none

/-- A decimal number: at least one digit. -/
def readDecimal : List Char → Option Nat
  | [] => none
  | ch :: rest => readDigits 10 decDigit 0 (ch :: rest)

/-- "a hexadecimal number of up to ten digits with prefix `0x`". -/
def readHex : List Char → Option Nat
  | '0' :: 'x' :: ch :: rest =>
    if rest.length < 10 then readDigits 16 hexDigit 0 (ch :: rest) else none
  | _ => none

/-- A name: it begins with a letter. -/
def readName : List Char → Option Name
  | [] => none
  | ch :: rest => if ch.isAlpha then some (ch :: rest) else none

/-- The list operand of a pseudo-instruction: its numbers one after another, as the programs of 95_test_vectors.md write
`SEAL 1 2 3`. DESIGN CHOICE, notes/assumptions/10.md: the empty list is written as no words at all, so the line of R71's
`COMPUTE []` is the bare keyword `COMPUTE`; brackets are R16's notation for a sequence and no text of a line, and the
text `COMPUTE []` is refused as badLine. -/
def readDecimals : List (List Char) → Option (List Nat)
  | [] => some []
  | w :: ws =>
    match readDecimal w with
    | none => none
    | some n => (readDecimals ws).map (n :: ·)

/-- The operand of `ENC`. -/
def readEncOperand (w : List Char) : Option EncOperand :=
  match readHex w with
  | some x => some (.value x)
  | none => (readName w).map .named

/-- The keywords, as R70 and R71 spell them. -/
def kwInit : List Char := ['I', 'N', 'I', 'T']
def kwAbsorb : List Char := ['A', 'B', 'S', 'O', 'R', 'B']
def kwEnc : List Char := ['E', 'N', 'C']
def kwChk : List Char := ['C', 'H', 'K']
def kwCompute : List Char := ['C', 'O', 'M', 'P', 'U', 'T', 'E']
def kwSeal : List Char := ['S', 'E', 'A', 'L']
def kwVerify : List Char := ['V', 'E', 'R', 'I', 'F', 'Y']

/-- The operands of `CHK`: none, or `-> name`. -/
def readChk : List (List Char) → Option Basic
  | [] => some (.chk none)
  | [['-', '>'], n] => (readName n).map fun m => .chk (some m)
  | _ => none

/-- The words of one line. -/
def readWords (k : List Char) (ops : List (List Char)) : Option Line :=
  if k = kwInit then
    match ops with
    | [] => some (.basic .init)
    | _ => none
  else if k = kwAbsorb then
    match ops with
    | [v] => (readDecimal v).map fun n => .basic (.absorb n)
    | _ => none
  else if k = kwEnc then
    match ops with
    | [x] => (readEncOperand x).map fun o => .basic (.enc o)
    | _ => none
  else if k = kwChk then (readChk ops).map .basic
  else if k = kwCompute then (readDecimals ops).map .compute
  else if k = kwSeal then (readDecimals ops).map .seal
  else if k = kwVerify then (readDecimals ops).map .verify
  else none

/-- One line of text: nothing for a blank or comment line, else its line, refused by name where the text is none of R70
and R71 or an operand is out of its range. -/
def readLine (cs : List Char) : Except Refusal (Option Line) :=
  match splitWords (stripComment cs) [] with
  | [] => .ok none
  | k :: ops =>
    match readWords k ops with
    | none => .error .badLine
    | some l => if l.wellFormed then .ok (some l) else .error .domain

/-- The lines of a program, refused as a whole at the first bad one. -/
def readLinesOf : List (List Char) → Except Refusal (List Line)
  | [] => .ok []
  | cs :: rest =>
    match readLine cs with
    | .error r => .error r
    | .ok none => readLinesOf rest
    | .ok (some l) =>
      match readLinesOf rest with
      | .error r => .error r
      | .ok ls => .ok (l :: ls)

/-- A program text. -/
def readProgram (text : List Char) : Except Refusal (List Line) := readLinesOf (splitLines text [])

/-! ### Printing (93_implementation_defined.md U6: "A disassembler prints `INIT`") -/

/-- A digit below 16. -/
def digitChar (d : Nat) : Char := if d < 10 then Char.ofNat (48 + d) else Char.ofNat (87 + d)

/-- A number below 100 in decimal, no leading zero. -/
def printDecimal (n : Nat) : List Char :=
  if n < 10 then [digitChar n] else [digitChar (n / 10), digitChar (n % 10)]

/-- The low `k` hexadecimal digits of `n`, before the text `out`. -/
def printHex : Nat → Nat → List Char → List Char
  | 0, _, out => out
  | k + 1, n, out => printHex k (n / 16) (digitChar (n % 16) :: out)

/-- The disassembler: the line of an instruction. -/
def instrText : Instr → List Char
  | .init => kwInit
  | .absorb v => kwAbsorb ++ ' ' :: printDecimal v.toNat
  | .enc x => kwEnc ++ ' ' :: '0' :: 'x' :: printHex 10 x.toNat []

end Sys2Proof.Machine
end

