-- ==== Sys2Proof/Machine/Instances.lean ====
section
/-! DEFINITION. Several instances of the block (60_exceptions.md R151): "They share nothing: no state, no port, no
identifier; none starts, stops or signals another." -/

namespace Sys2Proof.Machine

/-- Instance `n` makes one step and every other instance is as it was; an instance that does not exist makes none. -/
def stepInstance : Nat → List State → Host.Outcome (List State) Fault Refusal
  | _, [] => .next []
  | 0, s :: rest =>
    match step s with
    | .next t => .next (t :: rest)
    | .fault f => .fault f
    | .refused r => .refused r
  | n + 1, s :: rest =>
    match stepInstance n rest with
    | .next ts => .next (s :: ts)
    | .fault f => .fault f
    | .refused r => .refused r

end Sys2Proof.Machine
end

