-- ==== Sys2Proof/Safety.lean ====
section
/-! DEFINITION. What counts as a safe run: the block "raises no exception" (60_exceptions.md R140) and "Every accepted
command completes in the cycle it is accepted" (70_reset_and_hazards.md R170), so a safe run is one of which every step
answers a next state. -/

namespace Sys2Proof.Safety

open Sys2Proof.Machine

/-- The step completes: no fault, no refusal. -/
def StepCompletes (s : State) : Prop := ∃ t, step s = .next t

/-- `n` steps from `s` complete and end in `t`. -/
def RunsTo (n : Nat) (s t : State) : Prop := Sys2Proof.core.run n s = .next t

/-- Every run from `s`, of any length, completes. -/
def SafeFrom (s : State) : Prop := ∀ n, ∃ t, RunsTo n s t

end Sys2Proof.Safety
end

