-- ==== Sys2Proof/Certificates/Slice0/Obligations.lean ====
section
/-! DEFINITION. The statements about the machine. Each docstring names the rules of the spec the statement rests on. The
rules of the spec speak of `c`, `p_chk` and the lanes; `RunsTo n s t` says that n steps from s complete and end in t. -/

open Sys2Proof Sys2Proof.Machine Sys2Proof.Safety

/-! ### Encoding (30_encoding.md) -/

/-- R61, R62, R64: words written out bit by bit from the patterns `0vvvvv`, `1-----` and 40 operand bits. -/
def Obligations.WrittenOutWordsDecodeAsSpecified : Prop :=
  decode (.onCmd 0b000000) = .absorb 0 ∧ decode (.onCmd 0b001010) = .absorb 10 ∧
  decode (.onCmd 0b010000) = .absorb 16 ∧ decode (.onCmd 0b011111) = .absorb 31 ∧
  decode (.onCmd 0b100000) = .init ∧ decode (.onCmd 0b111111) = .init ∧
  decode (.onEIn 0b0000000100100011010001010110011110001001) = .enc 0x0123456789

/-- R64: the map, row by row; each word of each port selects exactly one row of it, the row of the instruction it decodes to; `0x00` to
`0x1f` are `ABSORB 0` to `ABSORB 31`, `0x20` to `0x3f` are INIT, every value on `e_in` is ENC of itself. -/
def Obligations.EveryWordSelectsExactlyItsRow : Prop :=
  opcodeTable = [⟨"ABSORB", .unitP, 6, 0x20, 0x00⟩, ⟨"INIT", .unitP, 6, 0x20, 0x20⟩, ⟨"ENC", .unitE, 40, 0, 0⟩] ∧
  (∀ pw : PortWord, ∃ r ∈ opcodeTable, r.selects pw = true ∧ r.mnemonic = (decode pw).mnemonic ∧
    ∀ r' ∈ opcodeTable, r'.selects pw = true → r' = r) ∧
  (∀ w : Cmd, w.toNat < 0x20 → decode (.onCmd w) = .absorb (BitVec.ofNat 5 w.toNat)) ∧
  (∀ w : Cmd, 0x20 ≤ w.toNat → decode (.onCmd w) = .init) ∧
  (∀ x : Acc, decode (.onEIn x) = .enc x)

/-- R67: all 32 words `0x20` to `0x3f` decode to INIT and do what `0x20` does, the encoder emits `0x20`,
decode-after-encode is the identity on all instructions, and encode-after-decode exactly on the canonical words. -/
def Obligations.InitWordsAreOneInstruction : Prop :=
  (∀ w : Cmd, 0x20 ≤ w.toNat → decode (.onCmd w) = .init ∧
    ∀ s, exec (decode (.onCmd w)) s = exec (decode (.onCmd 0x20)) s) ∧
  encode .init = .onCmd 0x20 ∧
  (∀ i : Instr, decode (encode i) = i) ∧
  (∀ pw : PortWord, encode (decode pw) = pw ↔ ∀ w : Cmd, pw = .onCmd w → 0x20 ≤ w.toNat → w = 0x20)

/-- R60, R64, R67, R142: an instruction's word as a number decodes back to the instruction, with every operand at every
value; a number decodes exactly if a word of the port is that number; and what it decodes to has it as its word, but for
the words of INIT. -/
def Obligations.NumberedWordsDecodeBack : Prop :=
  (∀ i : Instr, decodeNat i.unit (encode i).toNat = .ok i) ∧
  (∀ i : Instr, decodeTableWord (if i.unit = .unitP then 8 else 40) (encode i).toNat = some i) ∧
  (∀ n, decodeNat .unitP n = .error .tooWideForPort ↔ 2 ^ 6 ≤ n) ∧
  (∀ n, decodeNat .unitE n = .error .tooWideForPort ↔ 2 ^ 40 ≤ n) ∧
  (∀ u n i, decodeNat u n = .ok i → i.unit = u ∧ (i = .init → 32 ≤ n ∧ n < 64) ∧ (i ≠ .init → (encode i).toNat = n))

/-! ### The instructions (40_polymod.md, 41_encode.md) -/

/-- R81: the words with `op` = 1 are INIT, `0x20` the canonical one; INIT writes 1 to `c` from every state, the unspecified one included, and nothing else; `p_chk` is then 0; INIT
after INIT changes nothing. -/
def Obligations.InitWritesTheSeed : Prop :=
  (∀ w : Cmd, w.getLsbD 5 = true → decode (.onCmd w) = .init) ∧ encode .init = .onCmd 0x20 ∧
  (∀ s : State, exec .init s = .next { s with c := 1 } ∧ ({ s with c := 1 } : State).pChk = 0) ∧
  (∀ (s : State) (u : Acc), exec .init { s with c := u } = exec .init s) ∧
  (∀ s t : State, exec .init s = .next t → exec .init t = .next t)

/-- R82, steps 1 to 3 written out on 40-bit words with DOC00's constants: ABSORB of the word `v` writes that value to
`c` and changes nothing else. Step 2 is the concatenation `{c[34:0], v}`; the conditional XORs may be made in any order;
and the corner cases: `c` below 2^35, `top` = 31, `c` = 0, and the one fixed point of `ABSORB 0`. -/
def Obligations.AbsorbWritesTheStepOfTheAccumulator : Prop :=
  (∀ v : Sym, decode (.onCmd (BitVec.ofNat 6 v.toNat)) = .absorb v) ∧
  (∀ (v : Sym) (s : State),
    let t : Acc := s.c >>> 35
    let c1 : Acc := ((s.c &&& 0x07ffffffff) <<< 5) ^^^ v.setWidth 40
    c1 = s.c.extractLsb' 0 35 ++ v ∧
    exec (.absorb v) s = .next { s with c := c1
      ^^^ (if t.getLsbD 0 then (0x98f2bc8e61 : Acc) else 0) ^^^ (if t.getLsbD 1 then (0x79b76d99e2 : Acc) else 0)
      ^^^ (if t.getLsbD 2 then (0xf33e5fb3c4 : Acc) else 0) ^^^ (if t.getLsbD 3 then (0xae2eabe2a8 : Acc) else 0)
      ^^^ (if t.getLsbD 4 then (0x1e4f43e470 : Acc) else 0) } ∧
    ∀ order : List (Fin 5), order.Perm [0, 1, 2, 3, 4] →
      exec (.absorb v) s = .next { s with c := order.foldl (applyGenerator (top s.c)) c1 }) ∧
  (∀ (s : State) (v : Sym), s.c.toNat < 2 ^ 35 →
    ∃ t, exec (.absorb v) s = .next t ∧ t.c.toNat = 32 * s.c.toNat + v.toNat) ∧
  (∀ (s : State) (v : Sym), top s.c = 31 →
    exec (.absorb v) s = .next { s with c := ((s.c <<< 5) ^^^ v.setWidth 40) ^^^ 0xa21a66a29f }) ∧
  (∀ (s : State) (v : Sym), s.c = 0 → exec (.absorb v) s = .next { s with c := v.setWidth 40 }) ∧
  (∀ s : State, exec (.absorb 0) s = .next s ↔ s.c = 0)

/-- R110: ENC puts the eight groups on the lanes, most significant first, bit order kept inside a lane, every bit of x at
one place; `c` and the host's further acts are untouched. -/
def Obligations.EncPutsBigEndianGroupsOnTheLanes : Prop :=
  ∀ (x : Acc) (s : State), ∃ t, exec (.enc x) s = .next t ∧ t.c = s.c ∧ t.inputs = s.inputs ∧ t.eIn = x ∧
    t.lanes = { eSym0 := x.extractLsb' 35 5, eSym1 := x.extractLsb' 30 5, eSym2 := x.extractLsb' 25 5,
                eSym3 := x.extractLsb' 20 5, eSym4 := x.extractLsb' 15 5, eSym5 := x.extractLsb' 10 5,
                eSym6 := x.extractLsb' 5 5, eSym7 := x.extractLsb' 0 5 } ∧
    (∀ i b, i < 8 → b < 5 → (t.lanes.toList.getD i 0).getLsbD b = x.getLsbD (35 - 5 * i + b)) ∧
    ∀ k, k < 40 → ∃ i b, i < 8 ∧ b < 5 ∧ k = 35 - 5 * i + b ∧
      ∀ i' b', i' < 8 → b' < 5 → k = 35 - 5 * i' + b' → i' = i ∧ b' = b

/-- R83: at all times `p_chk` is `c XOR 1`, bit 0 complemented and bits 39:1 equal, and sampling it changes no state. -/
def Obligations.ChecksumPortIsAccumulatorXorOne : Prop :=
  (∀ s : State, s.pChk = s.c ^^^ 1 ∧ s.pChk.getLsbD 0 = !s.c.getLsbD 0 ∧
    ∀ k, 1 ≤ k → k ≤ 39 → s.pChk.getLsbD k = s.c.getLsbD k) ∧
  (∀ (h : Session) (name : Option Name), ∃ g, runBasic (.chk name) h = .next g ∧ g.block = h.block ∧
    g.samples = h.samples ++ [h.block.pChk])

/-- R18, R53: the frame of each instruction. INIT and ABSORB leave `e_in`, the lanes and the host's further acts as they
were; ENC leaves `c`, `p_chk` and the host's further acts as they were. -/
def Obligations.EachUnitLeavesTheOtherAlone : Prop :=
  (∀ s t : State, exec .init s = .next t → t.eIn = s.eIn ∧ t.lanes = s.lanes ∧ t.inputs = s.inputs) ∧
  (∀ (v : Sym) (s t : State), exec (.absorb v) s = .next t →
    t.eIn = s.eIn ∧ t.lanes = s.lanes ∧ t.inputs = s.inputs) ∧
  (∀ (x : Acc) (s t : State), exec (.enc x) s = .next t → t.c = s.c ∧ t.pChk = s.pChk ∧ t.inputs = s.inputs)

/-- R24: the table as printed, in hex, by the bits 39:35 and the bits 4:0 of each constant, and the XOR of all five. -/
def Obligations.GeneratorTableAsPrinted : Prop :=
  [generator 0, generator 1, generator 2, generator 3, generator 4]
    = [0x98f2bc8e61, 0x79b76d99e2, 0xf33e5fb3c4, 0xae2eabe2a8, 0x1e4f43e470] ∧
  [generator 0, generator 1, generator 2, generator 3, generator 4].map top = [19, 15, 30, 21, 3] ∧
  (∀ j : Fin 5, ((generator j).extractLsb' 0 5).toNat = 2 ^ j.val) ∧
  (encodeLanes (generator 0)).toList = [0b10011, 0b00011, 0b11001, 0b01011, 0b11001, 0b00011, 0b10011, 0b00001] ∧
  (encodeLanes (generator 1)).toList = [0b01111, 0b00110, 0b11011, 0b10110, 0b11011, 0b00110, 0b01111, 0b00010] ∧
  (encodeLanes (generator 2)).toList = [0b11110, 0b01100, 0b11111, 0b00101, 0b11111, 0b01100, 0b11110, 0b00100] ∧
  (encodeLanes (generator 3)).toList = [0b10101, 0b11000, 0b10111, 0b01010, 0b10111, 0b11000, 0b10101, 0b01000] ∧
  (encodeLanes (generator 4)).toList = [0b00011, 0b11001, 0b00111, 0b10100, 0b00111, 0b11001, 0b00011, 0b10000] ∧
  (generator 4).toNat < 2 ^ 37 ∧
  generator 0 ^^^ generator 1 ^^^ generator 2 ^^^ generator 3 ^^^ generator 4 = 0xa21a66a29f

/-! ### The machine (10_state.md, 20_memory.md, 60_exceptions.md, 70_reset_and_hazards.md) -/

/-- R48, R60: a command word at an edge with `p_valid` = 1 and `rst` = 0, and a value put on `e_in`, are decoded and
executed; nothing but the host's list moves around it. A table row's word placed by `withFetchWord` is the next one run. -/
def Obligations.StepRunsTheDecodedInstruction : Prop :=
  (∀ (s : State) (w : Cmd) (rest : List HostEvent), s.inputs = .edge false true w :: rest →
    step s = exec (decode (.onCmd w)) { s with inputs := rest }) ∧
  (∀ (s : State) (x : Acc) (rest : List HostEvent), s.inputs = .drive x :: rest →
    step s = exec (decode (.onEIn x)) { s with inputs := rest }) ∧
  (∀ (s : State) (w : Cmd), step (s.withFetchWord 8 w.toNat) = exec (decode (.onCmd w)) s) ∧
  (∀ (s : State) (x : Acc), step (s.withFetchWord 40 x.toNat) = exec (decode (.onEIn x)) s)

/-- R140, R143, R170: every instruction, every step and every run of any length answers a next state. -/
def Obligations.EveryRunCompletes : Prop :=
  (∀ (i : Instr) (s : State), ∃ t, exec i s = .next t) ∧ (∀ s : State, StepCompletes s) ∧ (∀ s : State, SafeFrom s)

/-- R160: at an edge with `rst` = 1, `c` is written with 1 and nothing else is reset; the state after reset is that of the
empty computation and the one INIT produces; State.reset is such a state. -/
def Obligations.ResetWritesTheSeed : Prop :=
  (∀ (s : State) (v : Bool) (w : Cmd) (rest : List HostEvent), s.inputs = .edge true v w :: rest → ∃ t,
    step s = .next t ∧ t = { s with c := 1, inputs := rest } ∧ t.pChk = 0 ∧ t.pChk = compute [] ∧
    exec .init { s with inputs := rest } = .next t) ∧
  State.reset.c = 1 ∧ State.reset.pChk = 0

/-- R161: at an edge with `rst` = 1, `p_valid` and `p_cmd` play no part, then or later, in the middle of a computation
too, and any number of such edges is the same as one. -/
def Obligations.ResetBeatsACommand : Prop :=
  (∀ (s : State) (v v' : Bool) (w w' : Cmd) (rest : List HostEvent),
    step { s with inputs := .edge true v w :: rest } = step { s with inputs := .edge true v' w' :: rest }) ∧
  (∀ (s : State) (levels : List (Bool × Cmd)) (rest : List HostEvent), levels ≠ [] →
    RunsTo levels.length { s with inputs := levels.map (fun l => .edge true l.1 l.2) ++ rest }
      { s with c := 1, inputs := rest })

/-- R162: at edges with `rst` = 0 and `p_valid` = 0 `c` keeps its value, whatever `p_cmd` is and however many they are. -/
def Obligations.IdleEdgesHoldTheAccumulator : Prop :=
  ∀ (s : State) (ws : List Cmd) (rest : List HostEvent),
    RunsTo ws.length { s with inputs := ws.map (fun w => .edge false false w) ++ rest } { s with inputs := rest }

/-- The model's choice (notes/assumptions/3.md; R162 and R172 stand behind it): while the host's list is empty nothing is
presented, and any number of steps leaves the state as it is. -/
def Obligations.NothingPresentedHoldsTheState : Prop :=
  ∀ (s : State) (n : Nat), s.inputs = [] → RunsTo n s s

/-- R164: reset has no part in Unit E: the lanes are `encode(e_in)` before and after an edge with `rst` = 1, and are the
same. -/
def Obligations.ResetLeavesTheLanesAlone : Prop :=
  ∀ (s : State) (v : Bool) (w : Cmd) (rest : List HostEvent), s.inputs = .edge true v w :: rest → ∃ t,
    step s = .next t ∧ s.lanes = encodeLanes s.eIn ∧ t.lanes = encodeLanes s.eIn

/-- R21: a step writes `c` only where its act is a reset, an accepted INIT or an accepted ABSORB, and writes what that
event writes. -/
def Obligations.AccumulatorIsWrittenByThreeEventsOnly : Prop :=
  ∀ s t : State, step s = .next t → t.c = s.c ∨
    (∃ v w rest, s.inputs = .edge true v w :: rest ∧ t.c = 1) ∨
    (∃ w rest, s.inputs = .edge false true w :: rest ∧ decode (.onCmd w) = .init ∧ t.c = 1) ∨
    (∃ w rest v, s.inputs = .edge false true w :: rest ∧ decode (.onCmd w) = .absorb v ∧ t.c = stepAcc s.c v)

/-- R48, R51: a program of command words run from any `c` ends in the fold of the step function over it, the words in
the order presented; nothing else of the state is touched. -/
def Obligations.RunOfCommandsIsTheFold : Prop :=
  ∀ (s : State) (ws : List Cmd) (rest : List HostEvent),
    RunsTo ws.length { s with inputs := ws.map (fun w => .edge false true w) ++ rest }
      { s with
        c := ws.foldl (fun c w => if w.toNat < 0x20 then stepAcc c (w.setWidth 5) else 1) s.c
        inputs := rest }

/-- R162, R171: idle edges inserted anywhere into any sequence of the host's acts, resets and values on `e_in` among
them, change no result. -/
def Obligations.IdleEdgesMayBeInsertedAnywhere : Prop :=
  ∀ (s : State) (evs : List HostEvent), ∃ t,
    RunsTo evs.length { s with inputs := evs } t ∧
    RunsTo (evs.filter fun ev => match ev with | .edge false false _ => false | _ => true).length
      { s with inputs := evs.filter fun ev => match ev with | .edge false false _ => false | _ => true } t

/-- R53: Units P and E are independent: however the acts at clock edges and the values on `e_in` interleave, `c` ends as
the edges alone leave it and the lanes end as the values alone leave them. -/
def Obligations.UnitsInterleaveFreely : Prop :=
  ∀ (s : State) (evs : List HostEvent), ∃ t tp te,
    RunsTo evs.length { s with inputs := evs } t ∧
    RunsTo (evs.filter fun ev => match ev with | .edge _ _ _ => true | .drive _ => false).length
      { s with inputs := evs.filter fun ev => match ev with | .edge _ _ _ => true | .drive _ => false } tp ∧
    RunsTo (evs.filter fun ev => match ev with | .edge _ _ _ => false | .drive _ => true).length
      { s with inputs := evs.filter fun ev => match ev with | .edge _ _ _ => false | .drive _ => true } te ∧
    t.c = tp.c ∧ t.pChk = tp.pChk ∧ tp.lanes = s.lanes ∧ t.lanes = te.lanes ∧ te.c = s.c

/-- R163: a program that begins with INIT, or with a reset, ends the same from every value of `c` before it; through any
acts of the host that hold no reset and no accepted INIT, a program of ABSORBs from the unreset block among them, two
different values of `c` stay different. -/
def Obligations.OnlyInitOrResetForgetsTheUnspecifiedValue : Prop :=
  (∀ (u u' e : Acc) (w : Cmd) (rest : List HostEvent) (n : Nat) (t : State), decode (.onCmd w) = .init →
    (RunsTo (n + 1) ⟨u, e, .edge false true w :: rest⟩ t ↔ RunsTo (n + 1) ⟨u', e, .edge false true w :: rest⟩ t)) ∧
  (∀ (u u' e : Acc) (v : Bool) (w : Cmd) (rest : List HostEvent) (n : Nat) (t : State),
    (RunsTo (n + 1) ⟨u, e, .edge true v w :: rest⟩ t ↔ RunsTo (n + 1) ⟨u', e, .edge true v w :: rest⟩ t)) ∧
  (∀ (u u' : Acc) (v : Sym), u ≠ u' → ∃ t t', exec (.absorb v) (State.unreset u) = .next t ∧
    exec (.absorb v) (State.unreset u') = .next t' ∧ t.c ≠ t'.c) ∧
  (∀ (u u' e : Acc) (evs : List HostEvent),
    (∀ ev ∈ evs, match ev with
      | .edge true _ _ => False
      | .edge false false _ => True
      | .edge false true w => decode (.onCmd w) ≠ .init
      | .drive _ => True) →
    u ≠ u' → ∃ t t', RunsTo evs.length ⟨u, e, evs⟩ t ∧ RunsTo evs.length ⟨u', e, evs⟩ t' ∧ t.c ≠ t'.c)

/-- R151: several instances share nothing: a step of instance n is that instance's own step, and every other instance
is as it was. -/
def Obligations.InstancesAreIndependent : Prop :=
  ∀ (ss : List State) (n : Nat) (s : State), ss[n]? = some s → ∃ t ts, step s = .next t ∧
    stepInstance n ss = .next ts ∧ ts[n]? = some t ∧ ts.length = ss.length ∧ ∀ m, m ≠ n → ts[m]? = ss[m]?

/-! ### `state`, `compute` and the computation in progress (40_polymod.md R85 to R87) -/

/-- R85, R86: `state` and `compute` as the rules define them are what the program `INIT; ABSORB s[0]; ...` leaves in `c`
and on `p_chk`, from any prior state; `compute([]) = 0` and `compute([0]*8) = 0x98f2bc8e60`. -/
def Obligations.ComputeProgramLeavesStateAndCompute : Prop :=
  stateOf [] = 1 ∧ (∀ (s : List Sym) (v : Sym), stateOf (s ++ [v]) = stepAcc (stateOf s) v) ∧
  (∀ s : List Sym, compute s = stateOf s ^^^ 1) ∧
  (∀ (m : State) (s : List Sym) (rest : List HostEvent), ∃ t,
    RunsTo (s.length + 1) { m with inputs := eventsOf (.init :: s.map .absorb) ++ rest } t ∧
    t = { m with c := stateOf s, inputs := rest } ∧ t.pChk = compute s) ∧
  compute [] = 0 ∧ compute (List.replicate 8 0) = 0x98f2bc8e60

/-- R87: sampled after the first k symbols since INIT, `p_chk` is `compute` of those k. -/
def Obligations.ChecksumPortShowsThePrefix : Prop :=
  ∀ (m : State) (s : List Sym) (rest : List HostEvent) (k : Nat), k ≤ s.length → ∃ t,
    RunsTo (k + 1) { m with inputs := eventsOf (.init :: s.map .absorb) ++ rest } t ∧ t.pChk = compute (s.take k)

/-- R85, R87, R160, R162, R166, the invariant every step keeps: `c` is `state` of the symbols accepted since the last
INIT or reset, whoever presented them. -/
def Obligations.StepKeepsTheComputationInProgress : Prop :=
  ∀ (s t : State) (absorbed : List Sym), s.c = stateOf absorbed → step s = .next t →
    t.c = stateOf (match s.inputs with | [] => absorbed | ev :: _ => trackSymbols absorbed ev)

/-- R160, R166, R167: reset starts the computation that has absorbed nothing, and after any acts of the host whatever
`p_chk` is `compute` of the symbols accepted since the last INIT or reset. -/
def Obligations.ChecksumPortAlwaysShowsTheComputationInProgress : Prop :=
  State.reset.c = stateOf [] ∧
  ∀ evs : List HostEvent, ∃ t, RunsTo evs.length { State.reset with inputs := evs } t ∧
    t.pChk = compute (evs.foldl trackSymbols [])

/-! ### Laws of the accumulator (40_polymod.md R88 to R94) -/

/-- R88: `step(c, v) = {c[34:0], v} XOR F(c[39:35])`, `F` is linear over XOR, and its 32 values are the printed ones. -/
def Obligations.StepIsConcatenationXorFeedback : Prop :=
  (∀ (c : Acc) (v : Sym), stepAcc c v = (c.extractLsb' 0 35 ++ v) ^^^ feedback (c.extractLsb' 35 5)) ∧
  (∀ t : Sym, feedback t = (if t.getLsbD 0 then generator 0 else 0) ^^^ (if t.getLsbD 1 then generator 1 else 0)
    ^^^ (if t.getLsbD 2 then generator 2 else 0) ^^^ (if t.getLsbD 3 then generator 3 else 0)
    ^^^ (if t.getLsbD 4 then generator 4 else 0)) ∧
  (∀ t u : Sym, feedback (t ^^^ u) = feedback t ^^^ feedback u) ∧
  (List.range 32).map (fun t => feedback (BitVec.ofNat 5 t)) =
    [0x0000000000, 0x98f2bc8e61, 0x79b76d99e2, 0xe145d11783, 0xf33e5fb3c4, 0x6bcce33da5, 0x8a89322a26, 0x127b8ea447,
     0xae2eabe2a8, 0x36dc176cc9, 0xd799c67b4a, 0x4f6b7af52b, 0x5d10f4516c, 0xc5e248df0d, 0x24a799c88e, 0xbc552546ef,
     0x1e4f43e470, 0x86bdff6a11, 0x67f82e7d92, 0xff0a92f3f3, 0xed711c57b4, 0x7583a0d9d5, 0x94c671ce56, 0x0c34cd4037,
     0xb061e806d8, 0x28935488b9, 0xc9d6859f3a, 0x512439115b, 0x435fb7b51c, 0xdbad0b3b7d, 0x3ae8da2cfe, 0xa21a66a29f]

/-- R89: below 2^35 no generator is applied; up to seven symbols stand behind the seed bit as one number; the eighth ABSORB
after INIT is the first whose `top` can be other than 0, and its `top` is 1. -/
def Obligations.NoFeedbackBeforeTheEighthSymbol : Prop :=
  (∀ (c : Acc) (v : Sym), c.toNat < 2 ^ 35 →
    (stepAcc c v).toNat = 32 * c.toNat + v.toNat ∧ 32 * c.toNat + v.toNat < 2 ^ 40) ∧
  (∀ s : List Sym, s.length ≤ 7 → (stateOf s).toNat = 2 ^ (5 * s.length) +
    ((List.range s.length).map fun i => (s.getD i 0).toNat * 2 ^ (5 * (s.length - 1 - i))).sum) ∧
  (∀ s : List Sym, s.length < 7 → top (stateOf s) = 0) ∧
  (∀ s : List Sym, s.length = 7 → (stateOf s).toNat < 2 ^ 36 ∧ top (stateOf s) = 1)

/-- R90: `step` is linear over XOR in both arguments together, and `state(s)` is `L^n(1)` with `L^(n-1-i)(s[i])` added for
each i, where `L(a) = step(a, 0)`. -/
def Obligations.StepIsLinearOverXor : Prop :=
  (∀ (a b : Acc) (v w : Sym), stepAcc (a ^^^ b) (v ^^^ w) = stepAcc a v ^^^ stepAcc b w) ∧
  (∀ (a : Acc) (v : Sym), stepAcc a v = stepAcc a 0 ^^^ v.setWidth 40) ∧
  (∀ (a b : Acc) (v : Sym), stepAcc (a ^^^ b) v = stepAcc a v ^^^ stepAcc b 0) ∧
  (∀ s : List Sym, stateOf s = (List.range s.length).foldl
    (fun acc i => acc ^^^ linPow (s.length - 1 - i) ((s.getD i 0).setWidth 40)) (linPow s.length 1))

/-- R91: the last eight symbols enter the accumulator unmixed, as one 40-bit XOR. -/
def Obligations.LastEightSymbolsEnterUnmixed : Prop :=
  ∀ (s : List Sym) (e : Lanes), stateOf (s ++ e.toList) = stateOf (s ++ List.replicate 8 0) ^^^ decode8 e

/-- R92: for each v, `step(·, v)` is a bijection; `top` is read back from the low five bits, and the rest of `c` from what
is left when the feedback is taken off. -/
def Obligations.AbsorbIsInvertible : Prop :=
  (∀ t : Sym, (feedback t).extractLsb' 0 5 = t) ∧
  (∀ (c : Acc) (v : Sym), c.extractLsb' 35 5 = (stepAcc c v).extractLsb' 0 5 ^^^ v ∧
    unstepAcc (stepAcc c v) v = c) ∧
  (∀ (c' : Acc) (v : Sym), stepAcc (unstepAcc c' v) v = c')

/-- R93: a change of one symbol, at any position of any sequence, changes `compute`, and by `L^(n-1-i)` of the change. -/
def Obligations.OneChangedSymbolAlwaysShows : Prop :=
  ∀ (before after : List Sym) (a b : Sym), a ≠ b →
    compute (before ++ a :: after) ^^^ compute (before ++ b :: after) = linPow after.length ((a ^^^ b).setWidth 40) ∧
    compute (before ++ a :: after) ≠ compute (before ++ b :: after)

/-- R94: each bit of `step(c, v)` is the bit five places down, or the symbol's, with the bits of `top` in the printed tap
set added; the tap sets are the columns of the generator table. -/
def Obligations.PerBitFormOfStep : Prop :=
  (∀ k : Fin 40, ∀ j : Fin 5, (generator j).getLsbD k.val = (tapTable.getD k.val []).contains j.val) ∧
  ∀ (c : Acc) (v : Sym) (k : Fin 40), (stepAcc c v).getLsbD k.val =
    (tapTable.getD k.val []).foldl (fun acc j => acc ^^ c.getLsbD (35 + j))
      (if k.val ≤ 4 then v.getLsbD k.val else c.getLsbD (k.val - 5))

/-- R22: cell k is `c[5k+4 : 5k]`, cell 7 is `top`; ABSORB moves cell k to cell k+1, puts the symbol in cell 0, drops cell 7, and adds the cells of the constants
that the dropped cell selects. -/
def Obligations.AbsorbShiftsTheCells : Prop :=
  ∀ (c : Acc) (v : Sym), (∀ k b, k ≤ 7 → b < 5 → (cell c k).getLsbD b = c.getLsbD (5 * k + b)) ∧
    cell c 7 = top c ∧
    cell (stepAcc c v) 0 = v ^^^ cell (feedback (cell c 7)) 0 ∧
    ∀ k, k ≤ 6 → cell (stepAcc c v) (k + 1) = cell c k ^^^ cell (feedback (cell c 7)) (k + 1)

/-- R23: every 40-bit value is `state` of some eight symbols, and some commands take the machine to it from any state. -/
def Obligations.EveryAccumulatorValueIsReachable : Prop :=
  ∀ x : Acc, ∃ s : List Sym, s.length = 8 ∧ stateOf s = x ∧
    ∀ m : State, ∃ t, RunsTo 9 { m with inputs := eventsOf (.init :: s.map .absorb) } t ∧ t.c = x

/-! ### Laws of the encoding (41_encode.md R111 to R115) -/

/-- R111: taking the low five bits and shifting right by five, eight times, fills the lanes from the last position
backward with the same values, and leaves nothing. -/
def Obligations.ShiftingEncodeIsSlicingEncode : Prop :=
  ∀ x : Acc, encodeByShifts 8 x [] = (encodeLanes x).toList ∧ x >>> 40 = 0

/-- R112, R113, R114: `encode` gives eight symbols in [0, 31]; `decode8` is the sum of `e_i * 2^(35-5i)`; and the two are
inverse to each other, both ways round. -/
def Obligations.EncodeAndReassembleAreInverse : Prop :=
  (∀ x : Acc, (encodeLanes x).toList.length = 8 ∧ ∀ l ∈ (encodeLanes x).toList, l.toNat ≤ 31) ∧
  (∀ e : Lanes, (decode8 e).toNat = e.eSym0.toNat * 2 ^ 35 + e.eSym1.toNat * 2 ^ 30 + e.eSym2.toNat * 2 ^ 25
    + e.eSym3.toNat * 2 ^ 20 + e.eSym4.toNat * 2 ^ 15 + e.eSym5.toNat * 2 ^ 10 + e.eSym6.toNat * 2 ^ 5
    + e.eSym7.toNat) ∧
  (∀ x : Acc, decode8 (encodeLanes x) = x) ∧
  (∀ e : Lanes, encodeLanes (decode8 e) = e)

/-- R115: `encode` is linear over XOR lane by lane. -/
def Obligations.EncodeIsLinearLaneByLane : Prop :=
  ∀ x y : Acc, (encodeLanes (x ^^^ y)).toList =
    List.zipWith (· ^^^ ·) (encodeLanes x).toList (encodeLanes y).toList

/-! ### The host (30_encoding.md R70, R71; 42_host_protocol.md; 60_exceptions.md R142) -/

/-- R129: the line `COMPUTE s`, and `VERIFY s`, run on the machine from any session, sample `compute(s)`; what was
computed before plays no part. -/
def Obligations.ComputeLineSamplesCompute : Prop :=
  (∀ s : List Nat, expandLine (.compute s) = .init :: s.map .absorb ++ [.chk none]) ∧
  ∀ (h : Session) (s : List Sym),
    runLine (.compute (s.map (·.toNat))) h = .next { h with
      block := { h.block with c := stateOf s }, samples := h.samples ++ [compute s] } ∧
    runLine (.verify (s.map (·.toNat))) h = runLine (.compute (s.map (·.toNat))) h

/-- R127: the line `SEAL s` run on the machine samples `k = compute(s ++ [0]*8)` and then reads `encode(k)` on the lanes;
`c` is `k XOR 1`; the host then forms `s ++ encode(k)`. -/
def Obligations.SealLineSamplesAndEncodesTheChecksum : Prop :=
  (∀ s : List Nat, expandLine (.seal s) =
    .init :: s.map .absorb ++ List.replicate 8 (.absorb 0) ++ [.chk (some ['k']), .enc (.named ['k'])]) ∧
  (∀ s : List Sym, sealedSequence s = s ++ (encodeLanes (compute (s ++ List.replicate 8 0))).toList) ∧
  ∀ (h : Session) (s : List Sym), ∃ g,
    runLine (.seal (s.map (·.toNat))) h = .next g ∧
    g.samples = h.samples ++ [compute (s ++ List.replicate 8 0)] ∧
    g.lanes = h.lanes ++ [encodeLanes (compute (s ++ List.replicate 8 0))] ∧
    g.block.c = compute (s ++ List.replicate 8 0) ^^^ 1 ∧
    g.block.lanes = encodeLanes (compute (s ++ List.replicate 8 0)) ∧
    g.block.inputs = h.block.inputs

/-- R130: the validity law: `compute` of every sealed sequence is 0, and `VERIFY` of it, run on the machine from any
session, samples 0. -/
def Obligations.SealedSequencesVerifyToZero : Prop :=
  ∀ s : List Sym,
    compute (s ++ (encodeLanes (compute (s ++ List.replicate 8 0))).toList) = 0 ∧
    ∀ h : Session, ∃ g, runLine (.verify ((sealedSequence s).map (·.toNat))) h = .next g ∧
      g.samples = h.samples ++ [0]

/-- R131: a sealed sequence changed in one position no longer verifies, and for a given s exactly one sequence of eight
symbols seals it. -/
def Obligations.SealIsUniqueAndShowsOneChange : Prop :=
  (∀ (before after : List Sym) (a b : Sym), a ≠ b → compute (before ++ a :: after) = 0 →
    compute (before ++ b :: after) ≠ 0) ∧
  (∀ (s e : List Sym), e.length = 8 →
    (compute (s ++ e) = 0 ↔ e = (encodeLanes (compute (s ++ List.replicate 8 0))).toList))

/-- R142: over numbers, `compute` and `encode` give no result exactly where a symbol is 32 or more or the checksum is 2^40
or more, and the functions' values everywhere else; no number is masked. -/
def Obligations.BoundaryRefusesAndNeverMasks : Prop :=
  (∀ s : List Nat, computeNat s = .error .domain ↔ ∃ v ∈ s, 32 ≤ v) ∧
  (∀ s : List Nat, (∀ v ∈ s, v < 32) → computeNat s = .ok (compute (s.map (BitVec.ofNat 5)))) ∧
  (∀ s : List Sym, computeNat (s.map (·.toNat)) = .ok (compute s)) ∧
  (∀ x : Nat, 2 ^ 40 ≤ x → encodeNat x = .error .domain) ∧
  (∀ x : Acc, encodeNat x.toNat = .ok (encodeLanes x))

/-- R70: what each line emits: `0x20`, the symbol, the checksum, nothing; an operand outside its range is refused. The
model's choices: a named operand has the name's newest value, and a name that was given none is refused
(notes/assumptions/11.md); a line that holds an operand out of range is refused before anything of it is presented, so
that the session it leaves, the block in it, is the one before the line (notes/assumptions/9.md). -/
def Obligations.AssemblerEmitsTheWordOrRefuses : Prop :=
  (∀ names, basicWords names .init = .ok [.onCmd 0x20]) ∧
  (∀ names v, v < 32 → basicWords names (.absorb v) = .ok [.onCmd (BitVec.ofNat 6 v)]) ∧
  (∀ names v, 32 ≤ v → basicWords names (.absorb v) = .error .domain) ∧
  (∀ names x, x < 2 ^ 40 → basicWords names (.enc (.value x)) = .ok [.onEIn (BitVec.ofNat 40 x)]) ∧
  (∀ names x, 2 ^ 40 ≤ x → basicWords names (.enc (.value x)) = .error .domain) ∧
  (∀ names n x, basicWords ((n, x) :: names) (.enc (.named n)) = .ok [.onEIn x]) ∧
  (∀ names m n x, m ≠ n → basicWords ((m, x) :: names) (.enc (.named n)) = basicWords names (.enc (.named n))) ∧
  (∀ n, basicWords [] (.enc (.named n)) = .error .unknownName) ∧
  (∀ names n, basicWords names (.chk n) = .ok []) ∧
  (∀ (h : Session) (v : Nat), 32 ≤ v → endLine (.basic (.absorb v)) h = ⟨h, some .domain⟩) ∧
  (∀ (h : Session) (x : Nat), 2 ^ 40 ≤ x → endLine (.basic (.enc (.value x))) h = ⟨h, some .domain⟩) ∧
  (∀ (h : Session) (s : List Nat), (∃ v ∈ s, 32 ≤ v) →
    endLine (.compute s) h = ⟨h, some .domain⟩ ∧ endLine (.seal s) h = ⟨h, some .domain⟩ ∧
    endLine (.verify s) h = ⟨h, some .domain⟩) ∧
  (∀ (l : Line) (h g : Session) (r : Refusal), endLine l h = ⟨g, some r⟩ → runLine l h = .refused r) ∧
  (∀ (l : Line) (h g : Session), endLine l h = ⟨g, none⟩ → runLine l h = .next g)

/-- R70, and the model's reading of its text (notes/assumptions/10.md): the line the disassembler prints for an
instruction reads back as that instruction, with every operand at every value. -/
def Obligations.PrintedInstructionReadsBack : Prop :=
  readLine (instrText .init) = .ok (some (.basic .init)) ∧
  (∀ v : Sym, readLine (instrText (.absorb v)) = .ok (some (.basic (.absorb v.toNat)))) ∧
  (∀ x : Acc, readLine (instrText (.enc x)) = .ok (some (.basic (.enc (.value x.toNat)))))

/-- R128, by the model's reading of such a host (notes/assumptions/18.md): a host that has wired `p_chk` to `e_in` reads
`encode(p_chk)` on the lanes, so that after `COMPUTE` of s and its placeholders, with no ENC, it reads `encode(k)`, and
after `SEAL s` the lanes that the explicit ENC gives. -/
def Obligations.WiredHostReadsTheSealWithoutEnc : Prop :=
  (∀ m : State, m.wiredLanes = encodeLanes m.pChk) ∧
  (∀ (h : Session) (s : List Sym), ∃ g,
    runLine (.compute ((s ++ List.replicate 8 0 : List Sym).map (·.toNat))) h = .next g ∧
    g.lanes = h.lanes ∧ g.block.eIn = h.block.eIn ∧
    g.block.wiredLanes = encodeLanes (compute (s ++ List.replicate 8 0))) ∧
  (∀ (h : Session) (s : List Sym), ∃ g,
    runLine (.seal (s.map (·.toNat))) h = .next g ∧ g.block.wiredLanes = g.block.lanes)
end

