-- ==== Sys2Proof/Laws/Decode.lean ====
section
/-! SUPPORT. The decoder and the encoder, one lemma for each of their branches. -/

namespace Sys2Proof

theorem Cmd.sym_toNat (w : Cmd) : (Cmd.sym w).toNat = w.toNat % 32 := by
  simp [Cmd.sym, BitVec.extractLsb'_toNat]

theorem decodeCmd_of_op {w : Cmd} (h : Cmd.op w = true) : decodeCmd w = .init := by
  rw [decodeCmd, if_pos h]

theorem decodeCmd_of_not_op {w : Cmd} (h : Cmd.op w = false) : decodeCmd w = .absorb (Cmd.sym w) := by
  rw [decodeCmd, if_neg (by rw [h]; exact Bool.false_ne_true)]

/-- A command word decodes to ABSORB of its low five bits or to INIT, and to nothing of Unit E. -/
theorem decodeCmd_cases (w : Cmd) : decodeCmd w = .absorb (Cmd.sym w) ∨ decodeCmd w = .init := by
  cases h : Cmd.op w
  · exact .inl (decodeCmd_of_not_op h)
  · exact .inr (decodeCmd_of_op h)

theorem decodeEIn_eq (x : Acc) : decodeEIn x = .enc x := rfl

theorem decodeCmd_encode_absorb (v : Sym) : decodeCmd (0#1 ++ v) = .absorb v := by
  revert v; decide

theorem decodeCmd_encode_init : decodeCmd 0x20 = .init := by decide

/-- Every instruction is well formed: its operands have the widths of the ports. -/
theorem Instr.wellFormed_all (i : Instr) : i.wellFormed = true := by
  cases i with
  | absorb v => exact decide_eq_true v.isLt
  | init => rfl
  | enc x => exact decide_eq_true x.isLt

theorem portWordOfNat_unitP {n : Nat} (h : n < 2 ^ 6) :
    portWordOfNat .unitP n = .ok (.onCmd (BitVec.ofNat 6 n)) := by
  simp only [portWordOfNat]; rw [if_pos h]

theorem portWordOfNat_unitE {n : Nat} (h : n < 2 ^ 40) :
    portWordOfNat .unitE n = .ok (.onEIn (BitVec.ofNat 40 n)) := by
  simp only [portWordOfNat]; rw [if_pos h]

end Sys2Proof
end

