-- ==== Sys2Proof/Laws/Ops.lean ====
section
/-! SUPPORT. The spec lemmas of the accumulator's update and of the lanes, bit by bit: later proofs cite these and do not
unfold `stepAcc`, `shiftIn` or `encodeLanes`. -/

namespace Sys2Proof.Machine

/-! ### Bits of the operands -/

theorem zext_getLsbD (v : Sym) (k : Nat) : (zext v).getLsbD k = v.getLsbD k := by
  rw [zext, BitVec.getLsbD_setWidth]
  by_cases h : k < 40
  · simp [h]
  · have : v.getLsbD k = false := BitVec.getLsbD_of_ge v k (by omega)
    simp [this]

theorem top_getLsbD (c : Acc) {k : Nat} (h : k < 5) : (top c).getLsbD k = c.getLsbD (35 + k) := by
  simp [top, h]

theorem window_getLsbD (c : Acc) {k : Nat} (h : k < 35) : (window c).getLsbD k = c.getLsbD k := by
  simp [window, h]

theorem cell_getLsbD (c : Acc) (n : Nat) {k : Nat} (h : k < 5) : (cell c n).getLsbD k = c.getLsbD (5 * n + k) := by
  simp [cell, h]

theorem lane_getLsbD (x : Acc) (i : Nat) {k : Nat} (h : k < 5) :
    (lane x i).getLsbD k = x.getLsbD (35 - 5 * i + k) := by
  simp [lane, h]

/-- Step 2, bit by bit: the symbol in bits 4:0, the window five places up (40_polymod.md R82). -/
theorem shiftIn_getLsbD (c : Acc) (v : Sym) {k : Nat} (h : k < 40) :
    (shiftIn c v).getLsbD k = if k < 5 then v.getLsbD k else c.getLsbD (k - 5) := by
  rw [shiftIn, BitVec.getLsbD_xor, zext_getLsbD, BitVec.getLsbD_shiftLeft]
  by_cases h5 : k < 5
  · simp [h5]
  · have hv : v.getLsbD k = false := BitVec.getLsbD_of_ge v k (by omega)
    have hw : k - 5 < 35 := by omega
    simp [h5, hv, h, window_getLsbD c hw, show k - 5 < 40 by omega]

/-! ### The generators applied -/

/-- One turn of step 3 as an XOR. -/
theorem applyGenerator_eq (t : Sym) (a : Acc) (j : Fin 5) :
    applyGenerator t a j = a ^^^ (if t.getLsbD j then generator j else 0) := by
  rw [applyGenerator]
  split
  · rfl
  · rw [show (0 : Acc) = 0#40 from rfl, BitVec.xor_zero]

/-- Step 3 adds, by XOR, a value that only `top` selects (40_polymod.md R88). -/
theorem applyGenerators_eq (t : Sym) (a : Acc) : applyGenerators t a = a ^^^ feedback t := by
  simp only [feedback, applyGenerators, List.foldl_cons, List.foldl_nil, applyGenerator_eq]
  rw [show (0 : Acc) = 0#40 from rfl, BitVec.zero_xor]
  simp only [BitVec.xor_assoc]

/-- `step(c, v)` is step 2 with the feedback of the old `top` added. -/
theorem stepAcc_eq (c : Acc) (v : Sym) : stepAcc c v = shiftIn c v ^^^ feedback (top c) :=
  applyGenerators_eq _ _

/-- `F(t)`, the five generators each under its bit of `t`. -/
theorem feedback_eq (t : Sym) :
    feedback t = (if t.getLsbD 0 then generator 0 else 0) ^^^ (if t.getLsbD 1 then generator 1 else 0)
      ^^^ (if t.getLsbD 2 then generator 2 else 0) ^^^ (if t.getLsbD 3 then generator 3 else 0)
      ^^^ (if t.getLsbD 4 then generator 4 else 0) := by
  simp only [feedback, applyGenerators, List.foldl_cons, List.foldl_nil, applyGenerator_eq]
  rw [show (0 : Acc) = 0#40 from rfl, BitVec.zero_xor]
  rfl

theorem feedback_zero : feedback 0 = 0 := by decide

/-- `GENERATOR[j][4:0] = 2^j` (10_state.md R24), so the feedback's low five bits are `top` itself. -/
theorem feedback_low (t : Sym) : (feedback t).extractLsb' 0 5 = t := by
  revert t; decide

/-! ### The lanes as a sequence -/

theorem Lanes.toList_length (l : Lanes) : l.toList.length = 8 := rfl

theorem encodeLanes_toList (x : Acc) : (encodeLanes x).toList = (List.range 8).map (lane x) := rfl

theorem Lanes.eq_of_toList {a b : Lanes} (h : a.toList = b.toList) : a = b := by
  cases a; cases b
  simp only [Lanes.toList, List.cons.injEq, and_true] at h
  obtain ⟨rfl, rfl, rfl, rfl, rfl, rfl, rfl, rfl⟩ := h
  rfl

end Sys2Proof.Machine
end

