-- ==== Sys2Proof/Laws/PerInstr.lean ====
section
/-! SUPPORT. What holds of every instruction as a piece of syntax, one lemma per constructor. -/

/-- The instruction is well formed and its word decodes back to it (30_encoding.md R67). -/
def Sys2Proof.Laws.RoundTrip.Statement (i : Sys2Proof.Instr) : Prop :=
  i.wellFormed = true ∧ Sys2Proof.decode (Sys2Proof.encode i) = i

theorem Sys2Proof.Laws.RoundTrip.absorb (v : Sys2Proof.Sym) : Sys2Proof.Laws.RoundTrip.Statement (.absorb v) :=
  ⟨Sys2Proof.Instr.wellFormed_all _, Sys2Proof.decodeCmd_encode_absorb v⟩

theorem Sys2Proof.Laws.RoundTrip.init : Sys2Proof.Laws.RoundTrip.Statement .init :=
  ⟨rfl, Sys2Proof.decodeCmd_encode_init⟩

theorem Sys2Proof.Laws.RoundTrip.enc (x : Sys2Proof.Acc) : Sys2Proof.Laws.RoundTrip.Statement (.enc x) :=
  ⟨Sys2Proof.Instr.wellFormed_all _, rfl⟩
end

