-- ==== Sys2Proof/Laws/State.lean ====
section
/-! SUPPORT. One lemma per field and per update of State, and per output and update: later proofs unfold no record
update. -/

namespace Sys2Proof.Machine

@[simp] theorem State.setC_c (s : State) (v : Acc) : (s.setC v).c = v := rfl
@[simp] theorem State.setC_eIn (s : State) (v : Acc) : (s.setC v).eIn = s.eIn := rfl
@[simp] theorem State.setC_inputs (s : State) (v : Acc) : (s.setC v).inputs = s.inputs := rfl

@[simp] theorem State.setEIn_c (s : State) (x : Acc) : (s.setEIn x).c = s.c := rfl
@[simp] theorem State.setEIn_eIn (s : State) (x : Acc) : (s.setEIn x).eIn = x := rfl
@[simp] theorem State.setEIn_inputs (s : State) (x : Acc) : (s.setEIn x).inputs = s.inputs := rfl

@[simp] theorem State.setInputs_c (s : State) (evs : List HostEvent) : (s.setInputs evs).c = s.c := rfl
@[simp] theorem State.setInputs_eIn (s : State) (evs : List HostEvent) : (s.setInputs evs).eIn = s.eIn := rfl
@[simp] theorem State.setInputs_inputs (s : State) (evs : List HostEvent) : (s.setInputs evs).inputs = evs := rfl

@[simp] theorem State.setInputs_self (s : State) : s.setInputs s.inputs = s := rfl
@[simp] theorem State.setInputs_setInputs (s : State) (as bs : List HostEvent) :
    (s.setInputs as).setInputs bs = s.setInputs bs := rfl
theorem State.setC_setInputs (s : State) (v : Acc) (evs : List HostEvent) :
    (s.setC v).setInputs evs = (s.setInputs evs).setC v := rfl
theorem State.setEIn_setInputs (s : State) (x : Acc) (evs : List HostEvent) :
    (s.setEIn x).setInputs evs = (s.setInputs evs).setEIn x := rfl

@[simp] theorem State.present_c (s : State) (ev : HostEvent) : (s.present ev).c = s.c := rfl
@[simp] theorem State.present_eIn (s : State) (ev : HostEvent) : (s.present ev).eIn = s.eIn := rfl
@[simp] theorem State.present_inputs (s : State) (ev : HostEvent) : (s.present ev).inputs = ev :: s.inputs := rfl

@[simp] theorem State.pChk_setC (s : State) (v : Acc) : (s.setC v).pChk = v ^^^ finalXor := rfl
@[simp] theorem State.pChk_setEIn (s : State) (x : Acc) : (s.setEIn x).pChk = s.pChk := rfl
@[simp] theorem State.pChk_setInputs (s : State) (evs : List HostEvent) : (s.setInputs evs).pChk = s.pChk := rfl
@[simp] theorem State.lanes_setC (s : State) (v : Acc) : (s.setC v).lanes = s.lanes := rfl
@[simp] theorem State.lanes_setEIn (s : State) (x : Acc) : (s.setEIn x).lanes = encodeLanes x := rfl
@[simp] theorem State.lanes_setInputs (s : State) (evs : List HostEvent) : (s.setInputs evs).lanes = s.lanes := rfl

/-- Two states with the same fields are the same state. -/
theorem State.eq_of_fields {s t : State} (hc : s.c = t.c) (he : s.eIn = t.eIn) (hi : s.inputs = t.inputs) : s = t := by
  cases s; cases t; cases hc; cases he; cases hi; rfl

end Sys2Proof.Machine
end

