-- ==== Sys2Proof/Laws/Step.lean ====
section
/-! SUPPORT. What a meaning, an act of the host and a step can do, each said once; the invariants and the runs are derived
from these. -/

namespace Sys2Proof.Machine

theorem exec_absorb (v : Sym) (s : State) : exec (.absorb v) s = .next (s.setC (stepAcc s.c v)) := rfl
theorem exec_init (s : State) : exec .init s = .next (s.setC Config.seed) := rfl
theorem exec_enc (x : Acc) (s : State) : exec (.enc x) s = .next (s.setEIn x) := rfl

/-- The accumulator after an accepted command word. -/
def commandEffect (c : Acc) (w : Cmd) : Acc := if Cmd.op w then Config.seed else stepAcc c (Cmd.sym w)

theorem exec_decodeCmd (w : Cmd) (s : State) : exec (decodeCmd w) s = .next (s.setC (commandEffect s.c w)) := by
  cases h : Cmd.op w
  · simp only [decodeCmd_of_not_op h, exec_absorb, commandEffect, h, Bool.false_eq_true, if_false]
  · simp only [decodeCmd_of_op h, exec_init, commandEffect, h, if_true]

/-- The state after one act of the host, as a total function: the block never stops (60_exceptions.md R140). -/
def afterEvent (ev : HostEvent) (s : State) : State :=
  match ev with
  | .edge true _ _ => s.setC Config.seed
  | .edge false false _ => s
  | .edge false true w => s.setC (commandEffect s.c w)
  | .drive x => s.setEIn x

theorem handleEvent_eq (ev : HostEvent) (s : State) : handleEvent ev s = .next (afterEvent ev s) := by
  match ev with
  | .edge true _ _ => rfl
  | .edge false false _ => rfl
  | .edge false true w => exact exec_decodeCmd w s
  | .drive _ => rfl

theorem step_nil {s : State} (h : s.inputs = []) : step s = .next s := by
  simp only [step, takeInput, h]; rfl

theorem step_cons {s : State} {ev : HostEvent} {rest : List HostEvent} (h : s.inputs = ev :: rest) :
    step s = .next (afterEvent ev (s.setInputs rest)) := by
  simp only [step, takeInput, h]
  exact handleEvent_eq ev _

/-- Everything a step can do: hold, or one act of the host (20_memory.md R48, R49; 70_reset_and_hazards.md R161, R162). -/
theorem step_cases {s t : State} (h : step s = .next t) :
    (s.inputs = [] ∧ t = s) ∨
    (∃ v w rest, s.inputs = .edge true v w :: rest ∧ t = (s.setInputs rest).setC Config.seed) ∨
    (∃ w rest, s.inputs = .edge false false w :: rest ∧ t = s.setInputs rest) ∨
    (∃ w rest, s.inputs = .edge false true w :: rest ∧ t = (s.setInputs rest).setC (commandEffect s.c w)) ∨
    (∃ x rest, s.inputs = .drive x :: rest ∧ t = (s.setInputs rest).setEIn x) := by
  cases hi : s.inputs with
  | nil =>
    rw [step_nil hi, Host.Outcome.next.injEq] at h
    exact .inl ⟨rfl, h.symm⟩
  | cons ev rest =>
    rw [step_cons hi, Host.Outcome.next.injEq] at h
    subst h
    match ev with
    | .edge true v w => exact .inr (.inl ⟨v, w, rest, rfl, rfl⟩)
    | .edge false false w => exact .inr (.inr (.inl ⟨w, rest, rfl, rfl⟩))
    | .edge false true w => exact .inr (.inr (.inr (.inl ⟨w, rest, rfl, rfl⟩)))
    | .drive x => exact .inr (.inr (.inr (.inr ⟨x, rest, rfl, rfl⟩)))

/-! ### Runs -/

open Sys2Proof.Safety (RunsTo)

theorem runsTo_zero (s : State) : RunsTo 0 s s := rfl

/-- A run of one step more is that step and the run from the state it answers. -/
theorem runsTo_succ_iff {s t : State} (h : step s = .next t) (n : Nat) (u : State) :
    RunsTo (n + 1) s u ↔ RunsTo n t u := by
  have hs : Sys2Proof.core.step s = .next t := h
  have hr : Sys2Proof.core.run (n + 1) s = Sys2Proof.core.run n t := by
    simp only [Host.Core.run, hs]
  exact ⟨fun hu => hr.symm.trans hu, fun hu => hr.trans hu⟩

/-- A run ends in one state. -/
theorem runsTo_unique {n : Nat} {s t u : State} (ht : RunsTo n s t) (hu : RunsTo n s u) : t = u := by
  have h : Host.Outcome.next t = Host.Outcome.next u := Eq.trans (Eq.symm ht) hu
  exact Host.Outcome.next.inj h

/-- The acts the host has yet to do play no part in one that comes before them. -/
theorem afterEvent_setInputs (ev : HostEvent) (s : State) (evs : List HostEvent) :
    afterEvent ev (s.setInputs evs) = (afterEvent ev s).setInputs evs := by
  match ev with
  | .edge true _ _ => rfl
  | .edge false false _ => rfl
  | .edge false true _ => rfl
  | .drive _ => rfl

/-- The state after a list of the host's acts. -/
def afterEvents (evs : List HostEvent) (s : State) : State := evs.foldl (fun t ev => afterEvent ev t) s

/-- A run over a list of the host's acts is the fold of their effects, and leaves the acts after them to do
(20_memory.md R48). -/
theorem runsTo_events (evs : List HostEvent) (s : State) (rest : List HostEvent) :
    RunsTo evs.length (s.setInputs (evs ++ rest)) ((afterEvents evs s).setInputs rest) := by
  induction evs generalizing s with
  | nil => exact runsTo_zero _
  | cons ev evs ih =>
    have h : step (s.setInputs (ev :: (evs ++ rest))) = .next ((afterEvent ev s).setInputs (evs ++ rest)) := by
      rw [step_cons (State.setInputs_inputs s _), State.setInputs_setInputs, afterEvent_setInputs]
    exact (runsTo_succ_iff h _ _).mpr (ih (afterEvent ev s))

end Sys2Proof.Machine
end

