-- ==== Sys2Proof/Laws/Protocol.lean ====
section
/-! SUPPORT. The small lemmas of the functions over sequences, of the boundary over numbers and of a host's session. -/

namespace Sys2Proof.Machine

theorem absorbAll_nil (c : Acc) : absorbAll c [] = c := rfl
theorem absorbAll_cons (c : Acc) (v : Sym) (s : List Sym) : absorbAll c (v :: s) = absorbAll (stepAcc c v) s := rfl
theorem absorbAll_append (c : Acc) (s t : List Sym) : absorbAll c (s ++ t) = absorbAll (absorbAll c s) t :=
  List.foldl_append
theorem stateOf_append (s t : List Sym) : stateOf (s ++ t) = absorbAll (stateOf s) t := absorbAll_append _ s t
theorem linPow_zero (a : Acc) : linPow 0 a = a := rfl
theorem linPow_succ (n : Nat) (a : Acc) : linPow (n + 1) a = linPow n (stepAcc a 0) := rfl

/-! ### The boundary over numbers -/

theorem symbolOfNat_ok {v : Nat} (h : v < 32) : symbolOfNat v = .ok (BitVec.ofNat 5 v) := by
  rw [symbolOfNat, if_pos (show symbolInRange v = true from decide_eq_true h)]

theorem symbolOfNat_error {v : Nat} (h : ¬ v < 32) : symbolOfNat v = .error .domain := by
  rw [symbolOfNat, if_neg (by simp only [symbolInRange, decide_eq_true_eq]; exact h)]

theorem symbolOfNat_toNat (v : Sym) : symbolOfNat v.toNat = .ok v := by
  rw [symbolOfNat_ok v.isLt, BitVec.ofNat_toNat, BitVec.setWidth_eq]

theorem checksumOfNat_ok {x : Nat} (h : x < 2 ^ 40) : checksumOfNat x = .ok (BitVec.ofNat 40 x) := by
  rw [checksumOfNat, if_pos (show checksumInRange x = true from decide_eq_true h)]

theorem checksumOfNat_error {x : Nat} (h : ¬ x < 2 ^ 40) : checksumOfNat x = .error .domain := by
  rw [checksumOfNat, if_neg (by simp only [checksumInRange, decide_eq_true_eq]; exact h)]

/-! ### Sessions -/

/-- Issuing an instruction is running it on the block. -/
theorem issue_absorb (h : Session) (v : Sym) :
    h.issue (.absorb v) = .next { h with block := h.block.setC (stepAcc h.block.c v) } := by
  have he : exec (decodeCmd (0#1 ++ v)) h.block = .next (h.block.setC (stepAcc h.block.c v)) := by
    rw [decodeCmd_encode_absorb, exec_absorb]
  have hs : step (h.block.present (eventOfWord (encode (.absorb v)))) = .next (h.block.setC (stepAcc h.block.c v)) := he
  simp only [Session.issue, hs]

theorem issue_init (h : Session) : h.issue .init = .next { h with block := h.block.setC Config.seed } := by
  have hs : step (h.block.present (eventOfWord (encode .init))) = .next (h.block.setC Config.seed) := rfl
  simp only [Session.issue, hs]

theorem issue_enc (h : Session) (x : Acc) : h.issue (.enc x) = .next { h with block := h.block.setEIn x } := by
  have hs : step (h.block.present (eventOfWord (encode (.enc x)))) = .next (h.block.setEIn x) := rfl
  simp only [Session.issue, hs]

@[simp] theorem LineEnd.outcome_none (h : Session) : LineEnd.outcome ⟨h, none⟩ = .next h := rfl
@[simp] theorem LineEnd.outcome_some (h : Session) (r : Refusal) : LineEnd.outcome ⟨h, some r⟩ = .refused r := rfl

theorem endBasics_nil (h : Session) : endBasics [] h = ⟨h, none⟩ := rfl

theorem endBasics_cons {b : Basic} {h g : Session} (bs : List Basic) (hb : runBasic b h = .next g) :
    endBasics (b :: bs) h = endBasics bs g := by
  simp only [endBasics, hb]

/-- A refused line leaves the session as the lines before it left it. -/
theorem endBasics_cons_refused {b : Basic} {h : Session} {r : Refusal} (bs : List Basic)
    (hb : runBasic b h = .refused r) : endBasics (b :: bs) h = ⟨h, some r⟩ := by
  simp only [endBasics, hb]

theorem runBasics_nil (h : Session) : runBasics [] h = .next h := rfl

theorem runBasics_cons {b : Basic} {h g : Session} (bs : List Basic) (hb : runBasic b h = .next g) :
    runBasics (b :: bs) h = runBasics bs g := by
  rw [runBasics, endBasics_cons bs hb, runBasics]

/-- A line with an operand out of range is refused, and the session it leaves is the one before it (30_encoding.md
R70). -/
theorem endLine_of_not_wellFormed {l : Line} (h : Session) (hl : l.wellFormed = false) :
    endLine l h = ⟨h, some .domain⟩ := by
  rw [endLine, if_neg (by rw [hl]; exact Bool.false_ne_true)]

theorem endLine_of_wellFormed {l : Line} (h : Session) (hl : l.wellFormed = true) :
    endLine l h = endBasics (expandLine l) h := by
  rw [endLine, if_pos hl]

theorem runLine_of_not_wellFormed {l : Line} (h : Session) (hl : l.wellFormed = false) :
    runLine l h = .refused .domain := by
  rw [runLine, endLine_of_not_wellFormed h hl, LineEnd.outcome_some]

theorem runLine_of_wellFormed {l : Line} (h : Session) (hl : l.wellFormed = true) :
    runLine l h = runBasics (expandLine l) h := by
  rw [runLine, endLine_of_wellFormed h hl, runBasics]

end Sys2Proof.Machine
end

