-- ==== Sys2Proof/Tests/Slice0.lean ====
section
/-! SUPPORT. Tests. Every expected value is the spec's: X, V and G entries are those of 95_test_vectors.md. At the end, for
each statement with hypotheses, a state and operands that meet them all. -/

namespace Sys2Proof.Tests

open Sys2Proof Sys2Proof.Machine

/-- A state with `c` only: `e_in` low and nothing presented. -/
def withC (c : Acc) : State := State.unreset c

/-- The state an outcome goes on with. -/
def nextOf (o : Host.Outcome State Fault Refusal) : Option State :=
  match o with
  | .next s => some s
  | .fault _ => none
  | .refused _ => none

/-- `c` and `p_chk` after one step with one act of the host. -/
def afterAct (c : Acc) (ev : HostEvent) : Option (Acc × Acc) :=
  (nextOf (step ((withC c).present ev))).map fun t => (t.c, t.pChk)

/-! ### Well-formedness refuses an ill-formed term, check by check -/

theorem test_symbol_31_in_range : symbolInRange 31 = true := by decide
theorem test_symbol_32_refused : symbolInRange 32 = false := by decide
theorem test_checksum_max_in_range : checksumInRange 0xffffffffff = true := by decide
theorem test_checksum_2_pow_40_refused : checksumInRange 0x10000000000 = false := by decide
theorem test_line_absorb_32_refused : (Line.basic (.absorb 32)).wellFormed = false := by decide
theorem test_line_enc_wide_refused : (Line.basic (.enc (.value 0x10000000000))).wellFormed = false := by decide
theorem test_line_compute_refused : (Line.compute [1, 32]).wellFormed = false := by decide
theorem test_line_seal_refused : (Line.seal [32]).wellFormed = false := by decide
theorem test_line_verify_refused : (Line.verify [0, 99]).wellFormed = false := by decide
theorem test_every_instr_well_formed : ∀ i : Instr, i.wellFormed = true := Instr.wellFormed_all

/-! ### Decoding: words written out from the patterns of 30_encoding.md R64 -/

/-- `0vvvvv` with v = 01010. -/
theorem test_decode_absorb : decode (.onCmd 0b001010) = .absorb 10 := by decide
/-- `1-----`, canonical and not. -/
theorem test_decode_init : decode (.onCmd 0b100000) = .init ∧ decode (.onCmd 0b101010) = .init := by decide
/-- 40 operand bits. -/
theorem test_decode_enc : decode (.onEIn 0b1001100011110010101111001000111001100000) = .enc 0x98f2bc8e60 := by decide
theorem test_decode_number_too_wide : (decodeNat .unitP 64).toOption = none ∧ (decodeNat .unitE (2 ^ 40)).toOption = none := by
  decide
theorem test_table_words : decodeTableWord 8 0x0a = some (.absorb 10) ∧ decodeTableWord 8 0x20 = some .init ∧
    decodeTableWord 40 0 = some (.enc 0) ∧ decodeTableWord 8 64 = none := by decide
theorem test_round_trip_every_instr : ∀ i : Instr, Laws.RoundTrip.Statement i
  | .absorb v => Laws.RoundTrip.absorb v
  | .init => Laws.RoundTrip.init
  | .enc x => Laws.RoundTrip.enc x

/-! ### One step of each instruction -/

/-- V3: bit 35 selects GENERATOR[0]; a model that takes `top` after the shift, or numbers its bits from the top, fails. -/
theorem test_absorb_bit_35 : afterAct 0x0800000000 (.edge false true 0x00) = some (0x98f2bc8e61, 0x98f2bc8e60) := by decide
/-- V15: a general value, `top` = 31. -/
theorem test_absorb_general : afterAct 0xfedcba9876 (.edge false true 0x15) = some (0x798d35ac4a, 0x798d35ac4b) := by decide
/-- V17. -/
theorem test_init : afterAct 0xfedcba9876 (.edge false true 0x20) = some (1, 0) := by decide
/-- V18: a word of INIT that is not the canonical one. -/
theorem test_init_word_3f : afterAct 0 (.edge false true 0x3f) = some (1, 0) := by decide
/-- V33: all lanes differ. -/
theorem test_enc_general : (nextOf (exec (.enc 0x0123456789) (withC 7))).map (fun t => (t.c, t.lanes.toList)) =
    some (7, [0, 4, 17, 20, 10, 25, 28, 9]) := by decide
/-- V30: bit 34 is bit 4 of lane 1 (a lane boundary lies above it). -/
theorem test_enc_bit_34 : (nextOf (step ((withC 0).present (.drive 0x0400000000)))).map (·.lanes.toList) =
    some [0, 16, 0, 0, 0, 0, 0, 0] := by decide

/-! ### Reset, hold and the first instruction after reset -/

/-- V19: reset beats a command in the same cycle. -/
theorem test_reset_beats_command : afterAct 0x0123456789 (.edge true true 0x1f) = some (1, 0) := by decide
/-- V20: a command word without `p_valid` does nothing. -/
theorem test_hold : afterAct 0x0000008443 (.edge false false 0x20) = some (0x0000008443, 0x0000008442) := by decide
/-- R35. -/
theorem test_reset : State.reset.c = 1 ∧ State.reset.pChk = 0 := by decide
/-- V2: `ABSORB 31` as the first instruction after reset. -/
theorem test_first_absorb : (nextOf (step (State.reset.withFetchWord 8 0x1f))).map (·.c) = some 0x000000003f := by decide
/-- V36 as the first instruction after reset. -/
theorem test_first_enc : (nextOf (step (State.reset.withFetchWord 40 0x98f2bc8e60))).map (·.lanes.toList) =
    some [19, 3, 25, 11, 25, 3, 19, 0] := by decide

/-! ### The functions over sequences -/

/-- X2 (derived value of R86). -/
theorem test_compute_eight_zeros : compute (List.replicate 8 0) = 0x98f2bc8e60 := by decide
/-- G2 and G3. -/
theorem test_seal_1_2_3 : sealValue [1, 2, 3] = 0xd91ad612dc ∧
    sealedSequence [1, 2, 3] = [1, 2, 3, 27, 4, 13, 13, 12, 4, 22, 28] ∧ compute (sealedSequence [1, 2, 3]) = 0 := by
  decide +kernel
/-- R166: the interleaving hazard. -/
theorem test_interleaving : compute [1, 3, 2] = 0x0000008463 ∧ compute [1, 2] = 0x0000000423 := by decide
/-- R113 on V36. -/
theorem test_decode8 : decode8 ⟨19, 3, 25, 11, 25, 3, 19, 0⟩ = 0x98f2bc8e60 := by decide
/-- R92's instance in 95_test_vectors.md 2.5. -/
theorem test_unstep : unstepAcc 0x98f2bc8e60 1 = 0x0800000000 := by decide
/-- V40's prefix symbols, from the characters of `bitcoincash`. -/
theorem test_prefix_symbols : hostSequence [98, 105, 116, 99, 111, 105, 110, 99, 97, 115, 104] [] =
    [2, 9, 20, 3, 15, 9, 14, 3, 1, 19, 8, 0] := by decide
theorem test_boundary_refuses : (computeNat [1, 32]).toOption = none ∧ (encodeNat (2 ^ 40)).toOption = none := by decide

/-! ### The assembler -/

theorem test_read_seal : (readLine ['S', 'E', 'A', 'L', ' ', '1', ' ', '2', ' ', '3', ' ', ';', 'x']).toOption =
    some (some (.seal [1, 2, 3])) := by decide
theorem test_read_chk : (readLine ['C', 'H', 'K', ' ', '-', '>', ' ', 'k']).toOption =
    some (some (.basic (.chk (some ['k'])))) := by decide
theorem test_read_comment : (readLine [';', 'x']).toOption = some none := by decide
/-- `COMPUTE []` of R71 as a line: the bare keyword, and no brackets (notes/assumptions/10.md). -/
theorem test_read_empty_list : (readLine kwCompute).toOption = some (some (.compute [])) ∧
    (readLine (kwCompute ++ [' ', '[', ']'])).toOption = none := by decide
/-- R70: refused with the session as it was, though the first symbol is in range. -/
theorem test_refused_line_presents_nothing :
    endLine (.compute [1, 32]) (Session.start (withC 5)) = ⟨Session.start (withC 5), some .domain⟩ := by decide
theorem test_read_absorb_32_refused : (readLine ['A', 'B', 'S', 'O', 'R', 'B', ' ', '3', '2']).toOption = none := by decide
/-- "up to ten digits". -/
theorem test_read_eleven_digits_refused :
    (readLine ['E', 'N', 'C', ' ', '0', 'x', '0', '0', '0', '0', '0', '0', '0', '0', '0', '0', '1']).toOption = none := by decide

/-! ### Witnesses: the hypotheses of each statement can be met, at the edges of their ranges -/

theorem witness_EveryWordSelectsExactlyItsRow : (0x1f : Cmd).toNat < 0x20 ∧ 0x20 ≤ (0x20 : Cmd).toNat ∧
    (opcodeTable.filter fun r => r.selects (.onCmd 0x1f)).length = 1 ∧
    (opcodeTable.filter fun r => r.selects (.onCmd 0x20)).length = 1 := by decide
theorem witness_InitWordsAreOneInstruction : 0x20 ≤ (0x3f : Cmd).toNat ∧ 0x20 ≤ (0x20 : Cmd).toNat := by decide
theorem witness_NumberedWordsDecodeBack : (decodeNat .unitP 63).toOption = some .init ∧
    (decodeNat .unitP 31).toOption = some (.absorb 31) ∧
    (decodeNat .unitE (2 ^ 40 - 1)).toOption = some (.enc 0xffffffffff) := by decide
theorem witness_InitWritesTheSeed : exec .init (withC 5) = .next (withC 1) ∧ (0x3f : Cmd).getLsbD 5 = true :=
  ⟨rfl, by decide⟩
theorem witness_AbsorbWritesTheStepOfTheAccumulator : (withC 0x07ffffffff).c.toNat < 2 ^ 35 ∧
    top (withC 0xf800000000).c = 31 ∧ (withC 0).c = 0 ∧ [4, 3, 2, 1, 0].Perm ([0, 1, 2, 3, 4] : List (Fin 5)) := by decide
theorem witness_EncPutsBigEndianGroupsOnTheLanes : 0 < 8 ∧ 7 < 8 ∧ 0 < 5 ∧ 4 < 5 ∧ 39 < 40 ∧ 39 = 35 - 5 * 0 + 4 ∧
    0 = 35 - 5 * 7 + 0 := by decide
theorem witness_ChecksumPortIsAccumulatorXorOne : 1 ≤ 1 ∧ 1 ≤ 39 ∧ 39 ≤ 39 := by decide
theorem witness_AbsorbShiftsTheCells : 0 ≤ 7 ∧ 7 ≤ 7 ∧ 4 < 5 ∧ 6 ≤ 6 := by decide
theorem witness_EachUnitLeavesTheOtherAlone : exec .init (withC 5) = .next (withC 1) ∧
    exec (.absorb 7) (withC 0) = .next (withC 7) ∧ exec (.enc 0) (withC 5) = .next (withC 5) :=
  ⟨rfl, rfl, rfl⟩
theorem witness_StepRunsTheDecodedInstruction : ((withC 0).present (.edge false true 0x3f)).inputs = .edge false true 0x3f :: [] ∧
    ((withC 0).present (.drive 9)).inputs = .drive 9 :: [] := by decide
theorem witness_ResetWritesTheSeed : ((withC 0).present (.edge true true 0x1f)).inputs = .edge true true 0x1f :: [] := by decide
theorem witness_ResetBeatsACommand : [(true, (0x1f : Cmd)), (false, 0)] ≠ [] := by decide
theorem witness_NothingPresentedHoldsTheState : State.reset.inputs = [] := by decide
theorem witness_ResetLeavesTheLanesAlone : ((withC 0).present (.edge true false 0)).inputs = .edge true false 0 :: [] := by decide
theorem witness_AccumulatorIsWrittenByThreeEventsOnly :
    nextOf (step ((withC 0).present (.edge false true 0x07))) = some (withC 7) := by decide
theorem witness_OnlyInitOrResetForgetsTheUnspecifiedValue : decode (.onCmd 0x20) = .init ∧ (0 : Acc) ≠ 1 ∧
    ∀ ev ∈ [HostEvent.edge false true 0x1f, .edge false false 0x20, .drive 3], match ev with
      | .edge true _ _ => False
      | .edge false false _ => True
      | .edge false true w => decode (.onCmd w) ≠ .init
      | .drive _ => True := by
  refine ⟨by decide, by decide, ?_⟩
  intro ev h
  simp only [List.mem_cons, List.not_mem_nil, or_false] at h
  rcases h with rfl | rfl | rfl
  · show decode (.onCmd 0x1f) ≠ .init
    decide
  · trivial
  · trivial
theorem witness_InstancesAreIndependent : [withC 3, withC 4][1]? = some (withC 4) ∧ (0 : Nat) ≠ 1 := by decide
theorem witness_ChecksumPortShowsThePrefix : 2 ≤ ([1, 2] : List Sym).length ∧ 0 ≤ ([1, 2] : List Sym).length := by decide
theorem witness_StepKeepsTheComputationInProgress : (withC 0x21).c = stateOf [1] ∧
    (nextOf (step ((withC 0x21).present (.edge false true 0x02)))).map (·.c) = some 0x422 := by decide
theorem witness_NoFeedbackBeforeTheEighthSymbol : (0x07ffffffff : Acc).toNat < 2 ^ 35 ∧
    (List.replicate 7 (0 : Sym)).length = 7 ∧ (List.replicate 6 (31 : Sym)).length < 7 := by decide
theorem witness_OneChangedSymbolAlwaysShows : (2 : Sym) ≠ 7 := by decide
/-- G3 and G4: position 1 changed from 2 to 7. -/
theorem witness_SealIsUniqueAndShowsOneChange : (2 : Sym) ≠ 7 ∧
    compute ([1] ++ 2 :: [3, 27, 4, 13, 13, 12, 4, 22, 28]) = 0 ∧
    ([27, 4, 13, 13, 12, 4, 22, 28] : List Sym).length = 8 := by decide +kernel
theorem witness_BoundaryRefusesAndNeverMasks : (∃ v ∈ [1, 32], 32 ≤ v) ∧ (∀ v ∈ [0, 31], v < 32) ∧ 2 ^ 40 ≤ 0x10000000000 := by decide
theorem witness_AssemblerEmitsTheWordOrRefuses : 31 < 32 ∧ 32 ≤ 32 ∧ 0xffffffffff < 2 ^ 40 ∧ 2 ^ 40 ≤ 0x10000000000 ∧
    (∃ v ∈ [32], 32 ≤ v) ∧ ['j'] ≠ ['k'] ∧
    endLine (.seal [32]) (Session.start (withC 5)) = ⟨Session.start (withC 5), some .domain⟩ ∧
    endLine (.basic .init) (Session.start (withC 5)) = ⟨Session.start (withC 1), none⟩ := by decide

end Sys2Proof.Tests
end

section
/-! The frame of an instruction follows from the unit it belongs to: Unit P's instructions write `c` and nothing else,
Unit E's one instruction sets the level on `e_in` and nothing else. -/

namespace Sys2Proof.Machine

/-- What an instruction answers is one state. -/
theorem exec_next_unique {i : Instr} {s t u : State} (ht : exec i s = .next t) (hu : exec i s = .next u) : t = u :=
  Host.Outcome.next.inj (ht.symm.trans hu)

/-- An instruction of Unit P only writes the accumulator (40_polymod.md R81, R82). -/
theorem exec_unitP_writes_c {i : Instr} {s t : State} (hi : i.unit = .unitP) (h : exec i s = .next t) :
    ∃ v, t = s.setC v := by
  cases i with
  | absorb v => exact ⟨_, exec_next_unique h (exec_absorb v s)⟩
  | init => exact ⟨_, exec_next_unique h (exec_init s)⟩
  | enc x => cases hi

/-- The instruction of Unit E only sets the level on `e_in` (41_encode.md R110). -/
theorem exec_unitE_sets_eIn {i : Instr} {s t : State} (hi : i.unit = .unitE) (h : exec i s = .next t) :
    ∃ x, t = s.setEIn x := by
  cases i with
  | absorb v => cases hi
  | init => cases hi
  | enc x => exact ⟨x, exec_next_unique h (exec_enc x s)⟩

theorem exec_unitP_frame {i : Instr} {s t : State} (hi : i.unit = .unitP) (h : exec i s = .next t) :
    t.eIn = s.eIn ∧ t.lanes = s.lanes ∧ t.inputs = s.inputs := by
  obtain ⟨v, rfl⟩ := exec_unitP_writes_c hi h
  exact ⟨s.setC_eIn v, s.lanes_setC v, s.setC_inputs v⟩

theorem exec_unitE_frame {i : Instr} {s t : State} (hi : i.unit = .unitE) (h : exec i s = .next t) :
    t.c = s.c ∧ t.pChk = s.pChk ∧ t.inputs = s.inputs := by
  obtain ⟨x, rfl⟩ := exec_unitE_sets_eIn hi h
  exact ⟨s.setEIn_c x, s.pChk_setEIn x, s.setEIn_inputs x⟩

/-- Settles O9: INIT and ABSORB have the frame of Unit P, ENC that of Unit E. -/
theorem eachUnitLeavesTheOtherAlone : Obligations.EachUnitLeavesTheOtherAlone :=
  ⟨fun _ _ => exec_unitP_frame rfl, fun _ _ _ => exec_unitP_frame rfl, fun _ _ _ => exec_unitE_frame rfl⟩

end Sys2Proof.Machine
end

section
/-! The accumulator as eight cells of five bits, and the three events that write it (10_state.md R21, R22, R24). -/

namespace Sys2Proof.Machine

/-! ### Cells -/

theorem cell_seven (c : Acc) : cell c 7 = top c := rfl

theorem cell_xor (a b : Acc) (k : Nat) : cell (a ^^^ b) k = cell a k ^^^ cell b k := BitVec.extractLsb'_xor

/-- Step 2 puts the symbol in cell 0. -/
theorem cell_shiftIn_zero (c : Acc) (v : Sym) : cell (shiftIn c v) 0 = v := by
  refine BitVec.eq_of_getLsbD_eq fun b hb => ?_
  rw [cell_getLsbD _ _ hb, shiftIn_getLsbD _ _ (by omega)]
  simp [hb]

/-- Step 2 moves every cell but the last to the next one. -/
theorem cell_shiftIn_succ (c : Acc) (v : Sym) {k : Nat} (hk : k ≤ 6) : cell (shiftIn c v) (k + 1) = cell c k := by
  refine BitVec.eq_of_getLsbD_eq fun b hb => ?_
  rw [cell_getLsbD _ _ hb, cell_getLsbD _ _ hb, shiftIn_getLsbD _ _ (by omega), if_neg (by omega),
    show 5 * (k + 1) + b - 5 = 5 * k + b by omega]

/-- ABSORB's update of one cell: what step 2 puts there, and the feedback's cell that the dropped cell selects. -/
theorem cell_stepAcc (c : Acc) (v : Sym) (k : Nat) :
    cell (stepAcc c v) k = cell (shiftIn c v) k ^^^ cell (feedback (cell c 7)) k := by
  rw [stepAcc_eq, cell_xor, cell_seven]

/-- Settles O35: the cells of step 2, with the feedback added cell by cell. -/
theorem absorbShiftsTheCells : Obligations.AbsorbShiftsTheCells := by
  refine fun c v => ⟨fun k _ _ hb => cell_getLsbD c k hb, cell_seven c, ?_, fun k hk => ?_⟩
  · rw [cell_stepAcc, cell_shiftIn_zero]
  · rw [cell_stepAcc, cell_shiftIn_succ c v hk]

/-! ### The writes of the accumulator -/

/-- What an accepted command word writes to `c`: the seed if it is an INIT, the step of `c` if it is an ABSORB. -/
theorem commandEffect_cases (c : Acc) (w : Cmd) :
    (decode (.onCmd w) = .init ∧ commandEffect c w = Config.seed) ∨
    (∃ v, decode (.onCmd w) = .absorb v ∧ commandEffect c w = stepAcc c v) := by
  cases h : Cmd.op w with
  | true => exact .inl ⟨decodeCmd_of_op h, by rw [commandEffect, if_pos h]⟩
  | false => exact .inr ⟨Cmd.sym w, decodeCmd_of_not_op h, by rw [commandEffect, if_neg (by simp [h])]⟩

/-- Settles O18: of all that a step can do, only a reset and an accepted command reach `c`. -/
theorem accumulatorIsWrittenByThreeEventsOnly : Obligations.AccumulatorIsWrittenByThreeEventsOnly := by
  intro s t h
  obtain ⟨-, rfl⟩ | ⟨v, w, rest, hi, rfl⟩ | ⟨w, rest, -, rfl⟩ | ⟨w, rest, hi, rfl⟩ | ⟨x, rest, -, rfl⟩ :=
    step_cases h
  · exact .inl rfl
  · exact .inr (.inl ⟨v, w, rest, hi, rfl⟩)
  · exact .inl rfl
  · obtain ⟨hd, hc⟩ | ⟨v, hd, hc⟩ := commandEffect_cases s.c w
    · exact .inr (.inr (.inl ⟨w, rest, hi, hd, hc⟩))
    · exact .inr (.inr (.inr ⟨w, rest, v, hi, hd, hc⟩))
  · exact .inl rfl

/-! ### The generator table -/

/-- Settles O10: the printed columns, one after another, computed from the hex column. -/
theorem generatorTableAsPrinted : Obligations.GeneratorTableAsPrinted :=
  ⟨rfl, rfl, by decide, rfl, rfl, rfl, rfl, rfl, by decide, rfl⟩

end Sys2Proof.Machine
end

section
/-! The symbols enter the accumulator linearly, the last eight of them unmixed, so that eight symbols after INIT reach
every value of `c` (10_state.md R23, 40_polymod.md R90, R91). -/

namespace Sys2Proof.Machine

open Sys2Proof.Safety (RunsTo)

/-! ### Linearity over XOR (40_polymod.md R90) -/

theorem shiftIn_xor (a b : Acc) (v w : Sym) : shiftIn (a ^^^ b) (v ^^^ w) = shiftIn a v ^^^ shiftIn b w := by
  refine BitVec.eq_of_getLsbD_eq fun k hk => ?_
  simp only [shiftIn_getLsbD _ _ hk, BitVec.getLsbD_xor]
  split <;> rfl

theorem feedback_xor (t u : Sym) : feedback (t ^^^ u) = feedback t ^^^ feedback u := by
  have selected (p q : Bool) (g : Acc) :
      (if p ^^ q then g else 0) = (if p then g else 0) ^^^ (if q then g else 0) := by
    cases p <;> cases q <;> simp
  simp only [feedback_eq, BitVec.getLsbD_xor, selected]
  ac_rfl

theorem stepAcc_xor (a b : Acc) (v w : Sym) : stepAcc (a ^^^ b) (v ^^^ w) = stepAcc a v ^^^ stepAcc b w := by
  have htop : top (a ^^^ b) = top a ^^^ top b := BitVec.extractLsb'_xor
  simp only [stepAcc_eq, shiftIn_xor, htop, feedback_xor]
  ac_rfl

/-- The effect of the accumulator before the symbols, and that of the symbols, add up. -/
theorem absorbAll_xor (a b : Acc) (s : List Sym) :
    absorbAll (a ^^^ b) s = absorbAll a (List.replicate s.length 0) ^^^ absorbAll b s := by
  induction s generalizing a b with
  | nil => rfl
  | cons v s ih =>
    have hstep : stepAcc (a ^^^ b) v = stepAcc a 0 ^^^ stepAcc b v := by
      rw [← stepAcc_xor]; simp
    rw [absorbAll_cons, absorbAll_cons, List.length_cons, List.replicate_succ, absorbAll_cons, hstep, ih]

/-! ### Eight symbols into the empty accumulator (40_polymod.md R91) -/

/-- While the window is not full, ABSORB appends the symbol. -/
theorem stepAcc_setWidth {n : Nat} (hn : n ≤ 35) (w : BitVec n) (v : Sym) :
    stepAcc (w.setWidth 40) v = (w ++ v).setWidth 40 := by
  have htop : top (w.setWidth 40) = 0 := by
    refine BitVec.eq_of_getLsbD_eq fun k hk => ?_
    rw [top_getLsbD _ hk, BitVec.getLsbD_setWidth, BitVec.getLsbD_of_ge w _ (by omega)]
    simp
  rw [stepAcc_eq, htop, feedback_zero, show (0 : Acc) = 0#40 from rfl, BitVec.xor_zero]
  refine BitVec.eq_of_getLsbD_eq fun k hk => ?_
  rw [shiftIn_getLsbD _ _ hk, BitVec.getLsbD_setWidth, BitVec.getLsbD_setWidth, BitVec.getLsbD_append]
  simp [hk, show k - 5 < 40 by omega]

theorem stepAcc_zero (v : Sym) : stepAcc 0 v = v.setWidth 40 := by
  rw [stepAcc_eq, show top 0 = 0 from rfl, feedback_zero]
  simp [shiftIn, window, zext]

/-- Eight symbols absorbed from 0 stand in `c` side by side. -/
theorem absorbAll_zero_lanes (e : Lanes) : absorbAll 0 e.toList = decode8 e := by
  simp (disch := decide) only [Lanes.toList, absorbAll_cons, absorbAll_nil, stepAcc_zero, stepAcc_setWidth]
  exact BitVec.setWidth_eq _

/-- The last eight symbols enter as one 40-bit XOR, whatever `c` was before them. -/
theorem absorbAll_lanes (c : Acc) (e : Lanes) :
    absorbAll c e.toList = absorbAll c (List.replicate 8 0) ^^^ decode8 e := by
  have h := absorbAll_xor c 0 e.toList
  rwa [show c ^^^ 0 = c from BitVec.xor_zero, Lanes.toList_length, absorbAll_zero_lanes] at h

/-- The eight groups of a value, put together again, are the value (41_encode.md R114). -/
theorem decode8_encodeLanes (x : Acc) : decode8 (encodeLanes x) = x := by
  simp (disch := decide) only [decode8, encodeLanes, lane, BitVec.extractLsb'_append_extractLsb'_eq_extractLsb']
  exact BitVec.extractLsb'_eq_self

/-- The eight symbols that take the accumulator from `c` to `x` (10_state.md R23). -/
def steeringLanes (c x : Acc) : Lanes := encodeLanes (absorbAll c (List.replicate 8 0) ^^^ x)

theorem absorbAll_steeringLanes (c x : Acc) : absorbAll c (steeringLanes c x).toList = x := by
  rw [absorbAll_lanes, steeringLanes, decode8_encodeLanes, ← BitVec.xor_assoc, BitVec.xor_self, BitVec.zero_xor]

/-! ### Programs of INIT and ABSORBs on the machine (40_polymod.md R85) -/

theorem afterEvent_absorb (m : State) (v : Sym) :
    afterEvent (eventOfWord (encode (.absorb v))) m = m.setC (stepAcc m.c v) := by
  have h : exec (decodeCmd (0#1 ++ v)) m = .next (m.setC (stepAcc m.c v)) := by
    rw [decodeCmd_encode_absorb, exec_absorb]
  exact exec_next_unique (exec_decodeCmd _ m) h

theorem afterEvent_init (m : State) : afterEvent (eventOfWord (encode .init)) m = m.setC Config.seed := rfl

theorem afterEvents_cons (ev : HostEvent) (evs : List HostEvent) (m : State) :
    afterEvents (ev :: evs) m = afterEvents evs (afterEvent ev m) := rfl

theorem afterEvents_absorbs (m : State) (s : List Sym) :
    afterEvents (eventsOf (s.map .absorb)) m = m.setC (absorbAll m.c s) := by
  induction s generalizing m with
  | nil => rfl
  | cons v s ih =>
    calc afterEvents (eventsOf ((v :: s).map .absorb)) m
      _ = afterEvents (eventsOf (s.map .absorb)) (m.setC (stepAcc m.c v)) := by
        rw [← afterEvent_absorb]; rfl
      _ = m.setC (absorbAll m.c (v :: s)) := ih _

theorem afterEvents_computeProgram (m : State) (s : List Sym) :
    afterEvents (eventsOf (computeProgram s)) m = m.setC (stateOf s) :=
  afterEvents_absorbs (m.setC Config.seed) s

/-- `INIT; ABSORB s[0]; ...` run from any state leaves `state(s)` in `c` and the acts after it to do. -/
theorem runsTo_computeProgram (m : State) (s : List Sym) (rest : List HostEvent) :
    RunsTo (s.length + 1) (m.setInputs (eventsOf (computeProgram s) ++ rest))
      ((m.setC (stateOf s)).setInputs rest) := by
  have h := runsTo_events (eventsOf (computeProgram s)) m rest
  have hlen : (eventsOf (computeProgram s)).length = s.length + 1 := by simp [eventsOf, computeProgram]
  rwa [hlen, afterEvents_computeProgram] at h

/-- Settles O36: the steering symbols of the seed, and the program of INIT and these symbols. -/
theorem everyAccumulatorValueIsReachable : Obligations.EveryAccumulatorValueIsReachable := by
  intro x
  have hstate : stateOf (steeringLanes Config.seed x).toList = x := absorbAll_steeringLanes _ x
  refine ⟨(steeringLanes Config.seed x).toList, Lanes.toList_length _, hstate, fun m => ?_⟩
  have hrun := runsTo_computeProgram m (steeringLanes Config.seed x).toList []
  rw [List.append_nil, hstate] at hrun
  exact ⟨(m.setC x).setInputs [], hrun, rfl⟩

end Sys2Proof.Machine
end

section
/-! What the host presents is what the machine runs: a word is decoded and executed, a program of command words is a
fold over `c`, and the acts of the two units interleave freely (20_memory.md R48, R49, R51, R53). -/

namespace Sys2Proof.Machine

open Sys2Proof.Safety (RunsTo)

/-! ### The word presented is the instruction run (20_memory.md R48, 30_encoding.md R60) -/

/-- A step whose act presents a word runs the instruction the word decodes to, on either port. -/
theorem step_of_eventOfWord {s : State} {pw : PortWord} {rest : List HostEvent}
    (h : s.inputs = eventOfWord pw :: rest) : step s = exec (decode pw) (s.setInputs rest) := by
  rw [step_cons h]
  cases pw with
  | onCmd w => exact (exec_decodeCmd w _).symm
  | onEIn x => exact (exec_enc x _).symm

theorem tableWord_cmd (w : Cmd) : tableWord 8 w.toNat = some (.onCmd w) := by
  have hp : portWordOfNat .unitP w.toNat = .ok (.onCmd w) := by
    rw [portWordOfNat_unitP w.isLt, BitVec.ofNat_toNat, BitVec.setWidth_eq]
  exact congrArg Except.toOption hp

theorem tableWord_eIn (x : Acc) : tableWord 40 x.toNat = some (.onEIn x) := by
  have hp : portWordOfNat .unitE x.toNat = .ok (.onEIn x) := by
    rw [portWordOfNat_unitE x.isLt, BitVec.ofNat_toNat, BitVec.setWidth_eq]
  exact congrArg Except.toOption hp

/-- A table row's word is presented in front of the host's list, which the step that runs it leaves as it was. -/
theorem step_withFetchWord {nbits w : Nat} {pw : PortWord} (h : tableWord nbits w = some pw) (s : State) :
    step (s.withFetchWord nbits w) = exec (decode pw) s := by
  have hp : s.withFetchWord nbits w = s.present (eventOfWord pw) := by
    simp only [State.withFetchWord, presentTableWord, h]
  rw [hp, step_of_eventOfWord (s.present_inputs _)]
  rfl

/-- Settles O11: the words of both ports, from the host's list and from a table row. -/
theorem stepRunsTheDecodedInstruction : Obligations.StepRunsTheDecodedInstruction :=
  ⟨fun _ _ _ h => step_of_eventOfWord h, fun _ _ _ h => step_of_eventOfWord h,
    fun s w => step_withFetchWord (tableWord_cmd w) s, fun s x => step_withFetchWord (tableWord_eIn x) s⟩

/-! ### A program of command words (20_memory.md R48, R51) -/

/-- Field `op` as an inequality on the number of the word (30_encoding.md R61, R64). -/
theorem op_iff_not_lt (w : Cmd) : Cmd.op w = true ↔ ¬ w.toNat < 0x20 := by
  revert w; decide

/-- What a command word writes to `c`, told from the number of the word. -/
theorem commandEffect_eq (c : Acc) (w : Cmd) :
    commandEffect c w = if w.toNat < 0x20 then stepAcc c (w.setWidth 5) else 1 := by
  have hsym : Cmd.sym w = w.setWidth 5 := by
    rw [← BitVec.toNat_inj, Cmd.sym_toNat, BitVec.toNat_setWidth]
  by_cases h : w.toNat < 0x20
  · rw [commandEffect, if_neg (fun hop => (op_iff_not_lt w).mp hop h), if_pos h, hsym]
  · rw [commandEffect, if_pos ((op_iff_not_lt w).mpr h), if_neg h]
    rfl

/-- A program of command words folds their effects over `c`, and leaves the rest of the state. -/
theorem afterEvents_commands (ws : List Cmd) (s : State) :
    afterEvents (ws.map (.edge false true)) s = s.setC (ws.foldl commandEffect s.c) := by
  induction ws generalizing s with
  | nil => rfl
  | cons w ws ih => exact ih (s.setC (commandEffect s.c w))

/-- Settles O19: the run over the words is the fold of their effects on `c`. -/
theorem runOfCommandsIsTheFold : Obligations.RunOfCommandsIsTheFold := by
  intro s ws rest
  have hrun := runsTo_events (ws.map (.edge false true)) s rest
  rw [List.length_map, afterEvents_commands, funext fun c => funext (commandEffect_eq c)] at hrun
  exact hrun

/-! ### The two units apart (20_memory.md R53) -/

/-- What an act of the host makes of `c`. -/
def accEffect (c : Acc) : HostEvent → Acc
  | .edge true _ _ => Config.seed
  | .edge false false _ => c
  | .edge false true w => commandEffect c w
  | .drive _ => c

/-- What an act of the host makes of the level on `e_in`. -/
def levelEffect (x : Acc) : HostEvent → Acc
  | .edge _ _ _ => x
  | .drive y => y

theorem afterEvent_c (ev : HostEvent) (s : State) : (afterEvent ev s).c = accEffect s.c ev := by
  match ev with
  | .edge true _ _ => rfl
  | .edge false false _ => rfl
  | .edge false true _ => rfl
  | .drive _ => rfl

theorem afterEvent_eIn (ev : HostEvent) (s : State) : (afterEvent ev s).eIn = levelEffect s.eIn ev := by
  match ev with
  | .edge true _ _ => rfl
  | .edge false false _ => rfl
  | .edge false true _ => rfl
  | .drive _ => rfl

/-- No value on `e_in` plays a part in `c`: it is a fold over the acts and the old `c` alone. -/
theorem afterEvents_c (evs : List HostEvent) (s : State) : (afterEvents evs s).c = evs.foldl accEffect s.c := by
  induction evs generalizing s with
  | nil => rfl
  | cons ev evs ih => rw [afterEvents_cons, ih, afterEvent_c, List.foldl_cons]

theorem afterEvents_eIn (evs : List HostEvent) (s : State) :
    (afterEvents evs s).eIn = evs.foldl levelEffect s.eIn := by
  induction evs generalizing s with
  | nil => rfl
  | cons ev evs ih => rw [afterEvents_cons, ih, afterEvent_eIn, List.foldl_cons]

/-- The act is at a clock edge: Unit P's. -/
def HostEvent.isEdge : HostEvent → Bool
  | .edge _ _ _ => true
  | .drive _ => false

/-- The act puts a value on `e_in`: Unit E's. -/
def HostEvent.isDrive : HostEvent → Bool
  | .edge _ _ _ => false
  | .drive _ => true

theorem accEffect_of_not_isEdge (c : Acc) {ev : HostEvent} (h : ¬ ev.isEdge = true) : accEffect c ev = c := by
  cases ev with
  | edge _ _ _ => exact absurd rfl h
  | drive _ => rfl

theorem accEffect_of_isDrive (c : Acc) {ev : HostEvent} (h : ev.isDrive = true) : accEffect c ev = c := by
  cases ev with
  | edge _ _ _ => cases h
  | drive _ => rfl

theorem levelEffect_of_not_isDrive (x : Acc) {ev : HostEvent} (h : ¬ ev.isDrive = true) : levelEffect x ev = x := by
  cases ev with
  | edge _ _ _ => rfl
  | drive _ => exact absurd rfl h

theorem levelEffect_of_isEdge (x : Acc) {ev : HostEvent} (h : ev.isEdge = true) : levelEffect x ev = x := by
  cases ev with
  | edge _ _ _ => rfl
  | drive _ => cases h

section Folds
variable {α β : Type} {f : β → α → β} {p : α → Bool}

/-- Entries that a fold ignores can be left out. -/
theorem foldl_filter_of_ignored (h : ∀ b a, ¬ p a = true → f b a = b) (b : β) (l : List α) :
    (l.filter p).foldl f b = l.foldl f b := by
  have hf : (fun b a => if p a = true then f b a else b) = f := by
    funext b a
    split
    · rfl
    · exact (h b a ‹_›).symm
  rw [List.foldl_filter, hf]

/-- A fold over entries that it ignores does nothing. -/
theorem foldl_filter_eq_self (h : ∀ b a, p a = true → f b a = b) (b : β) (l : List α) :
    (l.filter p).foldl f b = b := by
  induction l with
  | nil => rfl
  | cons a l ih =>
    by_cases hp : p a = true
    · rw [List.filter_cons_of_pos hp, List.foldl_cons, h b a hp, ih]
    · rw [List.filter_cons_of_neg hp, ih]

end Folds

/-- A run over exactly the acts in the host's list. -/
theorem runsTo_all (evs : List HostEvent) (s : State) :
    RunsTo evs.length (s.setInputs evs) ((afterEvents evs s).setInputs []) := by
  have h := runsTo_events evs s []
  rwa [List.append_nil] at h

/-- Settles O21: `c` is a fold that ignores the values on `e_in`, and the level on `e_in` one that ignores the edges. -/
theorem unitsInterleaveFreely : Obligations.UnitsInterleaveFreely := by
  intro s evs
  have hc : (afterEvents evs s).c = (afterEvents (evs.filter HostEvent.isEdge) s).c := by
    rw [afterEvents_c, afterEvents_c, foldl_filter_of_ignored fun c _ => accEffect_of_not_isEdge c]
  have he : (afterEvents evs s).eIn = (afterEvents (evs.filter HostEvent.isDrive) s).eIn := by
    rw [afterEvents_eIn, afterEvents_eIn, foldl_filter_of_ignored fun x _ => levelEffect_of_not_isDrive x]
  have hp : (afterEvents (evs.filter HostEvent.isEdge) s).eIn = s.eIn := by
    rw [afterEvents_eIn, foldl_filter_eq_self fun x _ => levelEffect_of_isEdge x]
  have hd : (afterEvents (evs.filter HostEvent.isDrive) s).c = s.c := by
    rw [afterEvents_c, foldl_filter_eq_self fun c _ => accEffect_of_isDrive c]
  exact ⟨_, _, _, runsTo_all evs s, runsTo_all _ s, runsTo_all _ s, hc, congrArg (· ^^^ finalXor) hc,
    congrArg encodeLanes hp, congrArg encodeLanes he, hd⟩

end Sys2Proof.Machine
end

section
/-! The words of the two ports, as bits and as numbers: which instruction a word is, which row of the map it selects,
and where the encoder and the decoder are inverse (30_encoding.md R60 to R67, 60_exceptions.md R142). -/

namespace Sys2Proof

/-! ### Words and instructions (30_encoding.md R64, R67) -/

theorem decode_encode (i : Instr) : decode (encode i) = i := by
  cases i with
  | absorb v => exact decodeCmd_encode_absorb v
  | init => exact decodeCmd_encode_init
  | enc x => exact decodeEIn_eq x

theorem encode_unit (i : Instr) : (encode i).unit = i.unit := by
  cases i <;> rfl

theorem decode_unit (pw : PortWord) : (decode pw).unit = pw.unit := by
  cases pw with
  | onCmd w => obtain h | h := decodeCmd_cases w <;> rw [decode, h] <;> rfl
  | onEIn x => rfl

theorem op_of_lt {w : Cmd} (h : w.toNat < 0x20) : Cmd.op w = false :=
  Bool.eq_false_iff.mpr fun hop => (Machine.op_iff_not_lt w).mp hop h

theorem op_of_ge {w : Cmd} (h : 0x20 ≤ w.toNat) : Cmd.op w = true :=
  (Machine.op_iff_not_lt w).mpr (Nat.not_lt.mpr h)

theorem decodeCmd_of_lt {w : Cmd} (h : w.toNat < 0x20) : decodeCmd w = .absorb (Cmd.sym w) :=
  decodeCmd_of_not_op (op_of_lt h)

theorem decodeCmd_of_ge {w : Cmd} (h : 0x20 ≤ w.toNat) : decodeCmd w = .init :=
  decodeCmd_of_op (op_of_ge h)

theorem decode_eq_init_iff (pw : PortWord) : decode pw = .init ↔ ∃ w : Cmd, pw = .onCmd w ∧ 0x20 ≤ w.toNat := by
  constructor
  · intro h
    cases pw with
    | onCmd w =>
      refine ⟨w, rfl, Nat.not_lt.mp fun hlt => ?_⟩
      exact absurd ((decodeCmd_of_lt hlt).symm.trans h) (by simp)
    | onEIn x => cases h
  · rintro ⟨w, rfl, hw⟩
    exact decodeCmd_of_ge hw

/-- The word of an ABSORB is its field `sym` with `op` = 0 above it. -/
theorem zero_append_sym {w : Cmd} (h : w.toNat < 0x20) : 0#1 ++ Cmd.sym w = w := by
  rw [← BitVec.toNat_inj, BitVec.toNat_append, Cmd.sym_toNat, Nat.mod_eq_of_lt h]
  simp

/-- A word that is no INIT is the only word of its instruction. -/
theorem encode_decode_of_ne_init {pw : PortWord} (h : decode pw ≠ .init) : encode (decode pw) = pw := by
  cases pw with
  | onCmd w =>
    have hw : w.toNat < 0x20 := Nat.not_le.mp fun hge => h (decodeCmd_of_ge hge)
    rw [decode, decodeCmd_of_lt hw, encode, zero_append_sym hw]
  | onEIn x => rfl

/-! ### Words as numbers (60_exceptions.md R142) -/

/-- The width of a unit's port (30_encoding.md R60). -/
def UnitName.portWidth : UnitName → Nat
  | .unitP => 6
  | .unitE => 40

theorem portWordOfNat_toNat (pw : PortWord) : portWordOfNat pw.unit pw.toNat = .ok pw := by
  cases pw with
  | onCmd w => exact (portWordOfNat_unitP w.isLt).trans (by simp)
  | onEIn x => exact (portWordOfNat_unitE x.isLt).trans (by simp)

theorem portWordOfNat_of_ge {u : UnitName} {n : Nat} (h : 2 ^ u.portWidth ≤ n) :
    portWordOfNat u n = .error .tooWideForPort := by
  cases u with
  | unitP => exact if_neg (Nat.not_lt.mpr h)
  | unitE => exact if_neg (Nat.not_lt.mpr h)

/-- A number below the bound of a port is a word of it. -/
theorem exists_portWord {u : UnitName} {n : Nat} (h : n < 2 ^ u.portWidth) :
    ∃ pw : PortWord, pw.unit = u ∧ pw.toNat = n := by
  cases u with
  | unitP => exact ⟨.onCmd (BitVec.ofNat 6 n), rfl, Nat.mod_eq_of_lt h⟩
  | unitE => exact ⟨.onEIn (BitVec.ofNat 40 n), rfl, Nat.mod_eq_of_lt h⟩

theorem decodeNat_toNat (pw : PortWord) : decodeNat pw.unit pw.toNat = .ok (decode pw) := by
  rw [decodeNat, portWordOfNat_toNat]

theorem decodeNat_of_ge {u : UnitName} {n : Nat} (h : 2 ^ u.portWidth ≤ n) :
    decodeNat u n = .error .tooWideForPort := by
  rw [decodeNat, portWordOfNat_of_ge h]

/-- Everything the decoder over numbers can do: read a word that is the number, or reject the number as no word. -/
theorem decodeNat_cases (u : UnitName) (n : Nat) :
    (∃ pw : PortWord, pw.unit = u ∧ pw.toNat = n ∧ decodeNat u n = .ok (decode pw)) ∨
    (2 ^ u.portWidth ≤ n ∧ decodeNat u n = .error .tooWideForPort) := by
  obtain h | h := Nat.lt_or_ge n (2 ^ u.portWidth)
  · obtain ⟨pw, rfl, rfl⟩ := exists_portWord h
    exact .inl ⟨pw, rfl, rfl, decodeNat_toNat pw⟩
  · exact .inr ⟨h, decodeNat_of_ge h⟩

theorem decodeNat_eq_error_iff (u : UnitName) (n : Nat) :
    decodeNat u n = .error .tooWideForPort ↔ 2 ^ u.portWidth ≤ n := by
  refine ⟨fun h => ?_, decodeNat_of_ge⟩
  obtain ⟨pw, -, -, hok⟩ | ⟨hge, -⟩ := decodeNat_cases u n
  · rw [hok] at h
    cases h
  · exact hge

/-- A number that decodes to an instruction is a word of that instruction. -/
theorem exists_word_of_decodeNat {u : UnitName} {n : Nat} {i : Instr} (h : decodeNat u n = .ok i) :
    ∃ pw : PortWord, pw.unit = u ∧ pw.toNat = n ∧ decode pw = i := by
  obtain ⟨pw, hu, hn, hok⟩ | ⟨-, herr⟩ := decodeNat_cases u n
  · exact ⟨pw, hu, hn, Except.ok.inj (hok.symm.trans h)⟩
  · rw [herr] at h
    cases h

theorem decodeTableWord_toNat (pw : PortWord) :
    decodeTableWord (if pw.unit = .unitP then 8 else 40) pw.toNat = some (decode pw) := by
  cases pw with
  | onCmd w => exact congrArg (Option.map decode) (Machine.tableWord_cmd w)
  | onEIn x => exact congrArg (Option.map decode) (Machine.tableWord_eIn x)

/-- Settles O4: through the words of the ports, whose numbers are exactly those below the bound of the port. -/
theorem numberedWordsDecodeBack : Obligations.NumberedWordsDecodeBack := by
  refine ⟨fun i => ?_, fun i => ?_, decodeNat_eq_error_iff .unitP, decodeNat_eq_error_iff .unitE, fun u n i h => ?_⟩
  · rw [← encode_unit, decodeNat_toNat, decode_encode]
  · rw [← encode_unit, decodeTableWord_toNat, decode_encode]
  · obtain ⟨pw, rfl, rfl, rfl⟩ := exists_word_of_decodeNat h
    refine ⟨decode_unit pw, fun hinit => ?_, fun hne => congrArg PortWord.toNat (encode_decode_of_ne_init hne)⟩
    obtain ⟨w, rfl, hw⟩ := (decode_eq_init_iff pw).mp hinit
    exact ⟨hw, w.isLt⟩

/-- Settles O3: a word that decodes to INIT is canonical if it is `0x20`, and every other word is. -/
theorem initWordsAreOneInstruction : Obligations.InitWordsAreOneInstruction := by
  refine ⟨fun w hw => ?_, rfl, decode_encode, fun pw => ?_⟩
  · have hd : decode (.onCmd w) = .init := decodeCmd_of_ge hw
    exact ⟨hd, fun s => by rw [hd, decode, decodeCmd_encode_init]⟩
  · by_cases h : decode pw = .init
    · obtain ⟨w, rfl, hw⟩ := (decode_eq_init_iff pw).mp h
      rw [h, encode, PortWord.onCmd.injEq]
      constructor
      · rintro rfl w' hw' -
        exact (PortWord.onCmd.inj hw').symm
      · exact fun hcanon => (hcanon w rfl hw).symm
    · exact iff_of_true (encode_decode_of_ne_init h) fun w hpw hw => absurd ((decode_eq_init_iff pw).mpr ⟨w, hpw, hw⟩) h

/-! ### The map (30_encoding.md R64) -/

/-- The mask of the two rows of format P keeps field `op`. -/
theorem and_mask (w : Cmd) : w.toNat &&& 0x20 = if Cmd.op w then 0x20 else 0x00 := by
  revert w; decide

/-- A row of the map selects the words of the instruction it names, and no other word. -/
theorem selects_iff_mnemonic {r : OpcodeRow} (hr : r ∈ opcodeTable) (pw : PortWord) :
    r.selects pw = true ↔ r.mnemonic = (decode pw).mnemonic := by
  simp only [opcodeTable, List.mem_cons, List.not_mem_nil, or_false] at hr
  cases pw with
  | onCmd w =>
    cases h : Cmd.op w with
    | true =>
      rw [decode, decodeCmd_of_op h]
      obtain rfl | rfl | rfl := hr <;> simp [OpcodeRow.selects, and_mask, h, Instr.mnemonic]
    | false =>
      rw [decode, decodeCmd_of_not_op h]
      obtain rfl | rfl | rfl := hr <;> simp [OpcodeRow.selects, and_mask, h, Instr.mnemonic]
  | onEIn x =>
    obtain rfl | rfl | rfl := hr <;> simp [OpcodeRow.selects, decode, decodeEIn, Instr.mnemonic]

theorem exists_row (i : Instr) : ∃ r ∈ opcodeTable, r.mnemonic = i.mnemonic := by
  cases i <;> simp [opcodeTable, Instr.mnemonic]

theorem row_unique : ∀ r ∈ opcodeTable, ∀ r' ∈ opcodeTable, r'.mnemonic = r.mnemonic → r' = r := by
  decide

/-- Settles O2: the row selected is the one with the instruction's mnemonic, and no two rows share a mnemonic. -/
theorem everyWordSelectsExactlyItsRow : Obligations.EveryWordSelectsExactlyItsRow := by
  refine ⟨rfl, fun pw => ?_, fun w hw => ?_, fun _ => decodeCmd_of_ge, decodeEIn_eq⟩
  · obtain ⟨r, hr, hm⟩ := exists_row (decode pw)
    refine ⟨r, hr, (selects_iff_mnemonic hr pw).mpr hm, hm, fun r' hr' hsel => ?_⟩
    exact row_unique r hr r' hr' (((selects_iff_mnemonic hr' pw).mp hsel).trans hm.symm)
  · have hsym : Cmd.sym w = BitVec.ofNat 5 w.toNat := BitVec.eq_of_toNat_eq (Cmd.sym_toNat w)
    rw [decode, decodeCmd_of_lt hw, hsym]

/-- Settles O1: `0vvvvv` is the word of ABSORB, `op` = 1 is INIT, and the value on `e_in` is the operand of ENC. -/
theorem writtenOutWordsDecodeAsSpecified : Obligations.WrittenOutWordsDecodeAsSpecified :=
  ⟨decodeCmd_encode_absorb 0, decodeCmd_encode_absorb 10, decodeCmd_encode_absorb 16, decodeCmd_encode_absorb 31,
    decodeCmd_of_op rfl, decodeCmd_of_op rfl, decodeEIn_eq _⟩

end Sys2Proof
end

section
/-! The assembler: the words a line emits or the refusal it ends in, and the lines the disassembler prints, which the
reader reads back (30_encoding.md R70, 42_host_protocol.md R132). -/

namespace Sys2Proof.Machine

/-! ### The words of a basic line -/

theorem basicWords_init (names : Names) : basicWords names .init = .ok [.onCmd 0x20] := rfl

theorem basicWords_chk (names : Names) (n : Option Name) : basicWords names (.chk n) = .ok [] := rfl

theorem basicWords_absorb (names : Names) {v : Nat} {a : Sym} (h : symbolOfNat v = .ok a) :
    basicWords names (.absorb v) = .ok [.onCmd (0#1 ++ a)] := by
  simp only [basicWords, basicInstr, h, encode]

theorem basicWords_absorb_error (names : Names) {v : Nat} {r : Refusal} (h : symbolOfNat v = .error r) :
    basicWords names (.absorb v) = .error r := by
  simp only [basicWords, basicInstr, h]

theorem basicWords_enc {names : Names} {x : EncOperand} {a : Acc} (h : resolveEnc names x = .ok a) :
    basicWords names (.enc x) = .ok [.onEIn a] := by
  simp only [basicWords, basicInstr, h, encode]

theorem basicWords_enc_error {names : Names} {x : EncOperand} {r : Refusal} (h : resolveEnc names x = .error r) :
    basicWords names (.enc x) = .error r := by
  simp only [basicWords, basicInstr, h]

/-- The names play a part in an `ENC` line by the value of its operand only. -/
theorem basicWords_enc_congr {names names' : Names} {x : EncOperand} (h : resolveEnc names x = resolveEnc names' x) :
    basicWords names (.enc x) = basicWords names' (.enc x) := by
  simp only [basicWords, basicInstr, h]

theorem lookupName_cons_self (names : Names) (n : Name) (x : Acc) : lookupName ((n, x) :: names) n = .ok x :=
  if_pos rfl

theorem lookupName_cons_ne (names : Names) {m n : Name} (x : Acc) (h : m ≠ n) :
    lookupName ((m, x) :: names) n = lookupName names n :=
  if_neg h

/-- A symbol with `op` = 0 above it has the symbol's number. -/
theorem zero_append_ofNat {v : Nat} (h : v < 32) : 0#1 ++ BitVec.ofNat 5 v = BitVec.ofNat 6 v := by
  have h64 : v < 64 := by omega
  rw [← BitVec.toNat_inj, BitVec.toNat_append]
  simp [Nat.mod_eq_of_lt h, Nat.mod_eq_of_lt h64]

/-! ### Operands out of range -/

theorem symbolInRange_of_ge {v : Nat} (h : 32 ≤ v) : symbolInRange v = false :=
  decide_eq_false (Nat.not_lt.mpr h)

theorem checksumInRange_of_ge {x : Nat} (h : 2 ^ 40 ≤ x) : checksumInRange x = false :=
  decide_eq_false (Nat.not_lt.mpr h)

theorem all_symbolInRange_of_ge {s : List Nat} (h : ∃ v ∈ s, 32 ≤ v) : s.all symbolInRange = false := by
  obtain ⟨v, hv, hge⟩ := h
  exact List.all_eq_false.mpr ⟨v, hv, by simp [symbolInRange_of_ge hge]⟩

/-- How a line ends is its outcome. -/
theorem runLine_of_endLine {l : Line} {h : Session} {e : LineEnd} (he : endLine l h = e) : runLine l h = e.outcome :=
  congrArg LineEnd.outcome he

/-- Settles O45: each operand is resolved or refused on its own, and one out of range makes its line ill-formed. -/
theorem assemblerEmitsTheWordOrRefuses : Obligations.AssemblerEmitsTheWordOrRefuses := by
  refine ⟨basicWords_init, fun names v hv => ?_, fun names v hv => ?_, fun names x hx => ?_, fun names x hx => ?_,
    fun names n x => ?_, fun names m n x hmn => ?_, fun n => ?_, basicWords_chk, fun h v hv => ?_, fun h x hx => ?_,
    fun h s hs => ?_, fun l h g r => runLine_of_endLine, fun l h g => runLine_of_endLine⟩
  · rw [basicWords_absorb names (symbolOfNat_ok hv), zero_append_ofNat hv]
  · exact basicWords_absorb_error names (symbolOfNat_error (Nat.not_lt.mpr hv))
  · exact basicWords_enc (checksumOfNat_ok hx)
  · exact basicWords_enc_error (checksumOfNat_error (Nat.not_lt.mpr hx))
  · exact basicWords_enc (lookupName_cons_self names n x)
  · exact basicWords_enc_congr (lookupName_cons_ne names x hmn)
  · exact basicWords_enc_error rfl
  · exact endLine_of_not_wellFormed h (symbolInRange_of_ge hv)
  · exact endLine_of_not_wellFormed h (checksumInRange_of_ge hx)
  · have hall := all_symbolInRange_of_ge hs
    exact ⟨endLine_of_not_wellFormed h hall, endLine_of_not_wellFormed h hall, endLine_of_not_wellFormed h hall⟩

/-! ### Words of a text (30_encoding.md R70; notes/assumptions/10.md) -/

/-- The text holds no character that ends a word: no space, no tab, no start of a comment. -/
def Unbroken (cs : List Char) : Prop := ∀ ch ∈ cs, ch ≠ ' ' ∧ ch ≠ '\t' ∧ ch ≠ ';'

theorem Unbroken.nil : Unbroken [] := List.forall_mem_nil _

theorem Unbroken.cons {ch : Char} {cs : List Char} (hch : ch ≠ ' ' ∧ ch ≠ '\t' ∧ ch ≠ ';') (hcs : Unbroken cs) :
    Unbroken (ch :: cs) :=
  List.forall_mem_cons.mpr ⟨hch, hcs⟩

theorem splitWords_cons {ch : Char} (h : ch ≠ ' ' ∧ ch ≠ '\t' ∧ ch ≠ ';') (rest cur : List Char) :
    splitWords (ch :: rest) cur = splitWords rest (ch :: cur) := by
  obtain ⟨hspace, htab, -⟩ := h
  cases cur with
  | nil => exact if_neg (not_or.mpr ⟨hspace, htab⟩)
  | cons d cur => exact if_neg (not_or.mpr ⟨hspace, htab⟩)

/-- The characters of an unbroken text all belong to the word being read. -/
theorem splitWords_append {w : List Char} (hw : Unbroken w) (rest cur : List Char) :
    splitWords (w ++ rest) cur = splitWords rest (w.reverse ++ cur) := by
  induction w generalizing cur with
  | nil => rfl
  | cons ch w ih =>
    obtain ⟨hch, hrest⟩ := List.forall_mem_cons.mp hw
    rw [List.cons_append, splitWords_cons hch, ih hrest, List.reverse_cons, List.append_assoc, List.singleton_append]

theorem splitWords_nil {cur : List Char} (h : cur ≠ []) : splitWords [] cur = [cur.reverse] := by
  cases cur with
  | nil => exact absurd rfl h
  | cons ch cur => rfl

theorem splitWords_space {cur : List Char} (h : cur ≠ []) (rest : List Char) :
    splitWords (' ' :: rest) cur = cur.reverse :: splitWords rest [] := by
  cases cur with
  | nil => exact absurd rfl h
  | cons ch cur => rfl

theorem splitWords_word {w : List Char} (hw : Unbroken w) (hne : w ≠ []) : splitWords w [] = [w] := by
  have h := splitWords_append hw [] []
  rwa [List.append_nil, List.append_nil, splitWords_nil (List.reverse_ne_nil_iff.mpr hne), List.reverse_reverse] at h

theorem splitWords_two {k w : List Char} (hk : Unbroken k) (hkne : k ≠ []) (hw : Unbroken w) (hwne : w ≠ []) :
    splitWords (k ++ ' ' :: w) [] = [k, w] := by
  rw [splitWords_append hk, List.append_nil, splitWords_space (List.reverse_ne_nil_iff.mpr hkne), List.reverse_reverse,
    splitWords_word hw hwne]

theorem stripComment_eq_self {cs : List Char} (h : ∀ ch ∈ cs, ch ≠ ';') : stripComment cs = cs := by
  induction cs with
  | nil => rfl
  | cons ch cs ih =>
    obtain ⟨hch, hcs⟩ := List.forall_mem_cons.mp h
    have hkept : stripComment (ch :: cs) = ch :: stripComment cs := List.takeWhile_cons_of_pos (bne_iff_ne.mpr hch)
    rw [hkept, ih hcs]

theorem readLine_of_words {cs k : List Char} {ops : List (List Char)} {l : Line} (hcs : ∀ ch ∈ cs, ch ≠ ';')
    (hw : splitWords cs [] = k :: ops) (hl : readWords k ops = some l) (hwf : l.wellFormed = true) :
    readLine cs = .ok (some l) := by
  simp only [readLine, stripComment_eq_self hcs, hw, hl, hwf, if_true]

/-- A line of a keyword and one operand. -/
theorem readLine_operand {k w : List Char} {l : Line} (hk : Unbroken k) (hkne : k ≠ []) (hw : Unbroken w)
    (hwne : w ≠ []) (hl : readWords k [w] = some l) (hwf : l.wellFormed = true) :
    readLine (k ++ ' ' :: w) = .ok (some l) := by
  refine readLine_of_words (fun ch hch => ?_) (splitWords_two hk hkne hw hwne) hl hwf
  obtain hch | rfl | hch := by simpa using hch
  · exact (hk ch hch).2.2
  · decide
  · exact (hw ch hch).2.2

/-! ### Digits -/

theorem digitChar_unbroken : ∀ d < 16, digitChar d ≠ ' ' ∧ digitChar d ≠ '\t' ∧ digitChar d ≠ ';' := by decide

theorem decDigit_digitChar : ∀ d < 10, decDigit (digitChar d) = some d := by decide

theorem hexDigit_digitChar : ∀ d < 16, hexDigit (digitChar d) = some d := by decide

theorem readDigits_cons {b : Nat} {digit : Char → Option Nat} {ch : Char} {d : Nat} (h : digit ch = some d)
    (acc : Nat) (rest : List Char) : readDigits b digit acc (ch :: rest) = readDigits b digit (b * acc + d) rest := by
  simp only [readDigits, h]

theorem printDecimal_unbroken {n : Nat} (h : n < 100) : Unbroken (printDecimal n) := by
  rw [printDecimal]
  split
  · exact .cons (digitChar_unbroken _ (by omega)) .nil
  · exact .cons (digitChar_unbroken _ (by omega)) (.cons (digitChar_unbroken _ (by omega)) .nil)

theorem printDecimal_ne_nil (n : Nat) : printDecimal n ≠ [] := by
  rw [printDecimal]
  split <;> exact List.cons_ne_nil _ _

theorem readDecimal_printDecimal {n : Nat} (h : n < 100) : readDecimal (printDecimal n) = some n := by
  rw [printDecimal]
  split
  · rw [readDecimal, readDigits_cons (decDigit_digitChar _ (by omega)), readDigits, Nat.mul_zero, Nat.zero_add]
  · rw [readDecimal, readDigits_cons (decDigit_digitChar _ (by omega)), readDigits_cons (decDigit_digitChar _ (by omega)),
      readDigits, Nat.mul_zero, Nat.zero_add, Nat.div_add_mod]

theorem printHex_unbroken (k n : Nat) {out : List Char} (h : Unbroken out) : Unbroken (printHex k n out) := by
  induction k generalizing n out with
  | zero => exact h
  | succ k ih => exact ih (n / 16) (.cons (digitChar_unbroken _ (Nat.mod_lt n (by omega))) h)

theorem printHex_length (k n : Nat) (out : List Char) : (printHex k n out).length = k + out.length := by
  induction k generalizing n out with
  | zero => exact (Nat.zero_add _).symm
  | succ k ih => rw [printHex, ih, List.length_cons]; omega

/-- Reading the `k` printed digits appends the low `k` digits of `n` to the value read before them. -/
theorem readDigits_printHex (k n acc : Nat) (out : List Char) :
    readDigits 16 hexDigit acc (printHex k n out) = readDigits 16 hexDigit (16 ^ k * acc + n % 16 ^ k) out := by
  induction k generalizing n out with
  | zero => rw [printHex, Nat.pow_zero, Nat.one_mul, Nat.mod_one, Nat.add_zero]
  | succ k ih =>
    have hvalue : 16 * (16 ^ k * acc + n / 16 % 16 ^ k) + n % 16 = 16 ^ (k + 1) * acc + n % 16 ^ (k + 1) := by
      rw [Nat.pow_succ', Nat.mod_mul, Nat.mul_add, Nat.mul_assoc]
      omega
    rw [printHex, ih, readDigits_cons (hexDigit_digitChar _ (Nat.mod_lt n (by omega))), hvalue]

theorem readHex_digits {ds : List Char} (hne : ds ≠ []) (hlen : ds.length ≤ 10) :
    readHex ('0' :: 'x' :: ds) = readDigits 16 hexDigit 0 ds := by
  cases ds with
  | nil => exact absurd rfl hne
  | cons ch rest => exact if_pos hlen

theorem readHex_printHex {n : Nat} (h : n < 2 ^ 40) : readHex ('0' :: 'x' :: printHex 10 n []) = some n := by
  have hlen : (printHex 10 n []).length = 10 := printHex_length 10 n []
  rw [readHex_digits (List.ne_nil_of_length_pos (by omega)) (by omega), readDigits_printHex, readDigits, Nat.mul_zero,
    Nat.zero_add, Nat.mod_eq_of_lt (by omega)]

/-! ### Lines -/

theorem readWords_absorb {w : List Char} {v : Nat} (h : readDecimal w = some v) :
    readWords kwAbsorb [w] = some (.basic (.absorb v)) :=
  congrArg (Option.map fun n => Line.basic (.absorb n)) h

theorem readWords_enc {w : List Char} {x : Nat} (h : readHex w = some x) :
    readWords kwEnc [w] = some (.basic (.enc (.value x))) := by
  have ho : readEncOperand w = some (.value x) := by simp only [readEncOperand, h]
  exact congrArg (Option.map fun o => Line.basic (.enc o)) ho

/-- Settles O46: each line is a keyword and the printed operand, which its reader reads back. -/
theorem printedInstructionReadsBack : Obligations.PrintedInstructionReadsBack := by
  refine ⟨rfl, fun v => ?_, fun x => ?_⟩
  · have hv : v.toNat < 100 := by omega
    exact readLine_operand (by simp [Unbroken, kwAbsorb]) (List.cons_ne_nil _ _) (printDecimal_unbroken hv)
      (printDecimal_ne_nil _) (readWords_absorb (readDecimal_printDecimal hv)) (Instr.wellFormed_all (.absorb v))
  · have hw : Unbroken ('0' :: 'x' :: printHex 10 x.toNat []) :=
      .cons (by decide) (.cons (by decide) (printHex_unbroken 10 _ .nil))
    exact readLine_operand (by simp [Unbroken, kwEnc]) (List.cons_ne_nil _ _) hw (List.cons_ne_nil _ _)
      (readWords_enc (readHex_printHex x.isLt)) (Instr.wellFormed_all (.enc x))

end Sys2Proof.Machine
end

section
/-! The computation in progress: `c` is `state` of the symbols accepted since the last INIT or reset, step by step, and
`p_chk` shows `compute` of them at all times (40_polymod.md R81, R83, R85 to R87). -/

namespace Sys2Proof.Machine

open Sys2Proof.Safety (RunsTo)

/-! ### The invariant every step keeps (40_polymod.md R85, R87) -/

theorem stateOf_concat (s : List Sym) (v : Sym) : stateOf (s ++ [v]) = stepAcc (stateOf s) v :=
  stateOf_append s [v]

/-- What an accepted command word makes of a computation in progress, it makes of the record of its symbols. -/
theorem commandEffect_stateOf (absorbed : List Sym) (w : Cmd) :
    commandEffect (stateOf absorbed) w = stateOf (trackSymbols absorbed (.edge false true w)) := by
  cases h : Cmd.op w with
  | true => simp only [commandEffect, trackSymbols, decodeCmd_of_op h, if_pos h]; rfl
  | false =>
    simp only [commandEffect, trackSymbols, decodeCmd_of_not_op h, h, Bool.false_eq_true, if_false, stateOf_concat]

/-- The record of the symbols follows every act of the host. -/
theorem accEffect_stateOf (absorbed : List Sym) (ev : HostEvent) :
    accEffect (stateOf absorbed) ev = stateOf (trackSymbols absorbed ev) := by
  match ev with
  | .edge true _ _ => rfl
  | .edge false false _ => rfl
  | .edge false true w => exact commandEffect_stateOf absorbed w
  | .drive _ => rfl

/-- Settles O26: a step holds, or it is the one act that the record of the symbols follows. -/
theorem stepKeepsTheComputationInProgress : Obligations.StepKeepsTheComputationInProgress := by
  intro s t absorbed hc h
  cases hi : s.inputs with
  | nil =>
    obtain rfl : s = t := Host.Outcome.next.inj ((step_nil hi).symm.trans h)
    exact hc
  | cons ev rest =>
    obtain rfl : afterEvent ev (s.setInputs rest) = t := Host.Outcome.next.inj ((step_cons hi).symm.trans h)
    rw [afterEvent_c, State.setInputs_c, hc, accEffect_stateOf]

/-! ### The program of a computation (40_polymod.md R85 to R87) -/

/-- Settles O24: the run of the program, and the values of `compute` by evaluation. -/
theorem computeProgramLeavesStateAndCompute : Obligations.ComputeProgramLeavesStateAndCompute :=
  ⟨rfl, stateOf_concat, fun _ => rfl, fun m s rest => ⟨_, runsTo_computeProgram m s rest, rfl, rfl⟩, by decide,
    by decide⟩

/-- The program of a sequence begins with the program of each of its prefixes. -/
theorem eventsOf_computeProgram_split (s : List Sym) (k : Nat) :
    eventsOf (computeProgram s) =
      eventsOf (computeProgram (s.take k)) ++ eventsOf ((s.drop k).map .absorb) := by
  rw [eventsOf, eventsOf, eventsOf, ← List.map_append, computeProgram, computeProgram, List.cons_append,
    ← List.map_append, List.take_append_drop]

/-- Settles O25: the first k + 1 steps run the program of the first k symbols. -/
theorem checksumPortShowsThePrefix : Obligations.ChecksumPortShowsThePrefix := by
  intro m s rest k hk
  have hrun := runsTo_computeProgram m (s.take k) (eventsOf ((s.drop k).map .absorb) ++ rest)
  rw [← List.append_assoc, ← eventsOf_computeProgram_split, List.length_take_of_le hk] at hrun
  exact ⟨_, hrun, rfl⟩

/-! ### The seed and the port (40_polymod.md R81, R83) -/

/-- Settles O5: field `op` alone decides, and the seed is written whatever `c` was. -/
theorem initWritesTheSeed : Obligations.InitWritesTheSeed := by
  refine ⟨fun w => decodeCmd_of_op, rfl, fun s => ⟨exec_init s, ?_⟩, fun s u => ?_, fun s t h => ?_⟩
  · exact BitVec.xor_self
  · rw [exec_init, exec_init]; rfl
  · obtain rfl := exec_next_unique h (exec_init s)
    exact exec_init _

theorem finalXor_getLsbD (k : Nat) : finalXor.getLsbD k = decide (k = 0) := by
  rw [show finalXor = 1#40 from rfl, BitVec.getLsbD_one]
  simp

/-- Settles O8: FINAL_XOR has bit 0 alone, and a line that samples leaves the block. -/
theorem checksumPortIsAccumulatorXorOne : Obligations.ChecksumPortIsAccumulatorXorOne := by
  refine ⟨fun s => ⟨rfl, ?_, fun k hk _ => ?_⟩, fun h name => ⟨h.sample name, rfl, rfl, rfl⟩⟩
  · rw [State.pChk, BitVec.getLsbD_xor, finalXor_getLsbD]
    simp
  · rw [State.pChk, BitVec.getLsbD_xor, finalXor_getLsbD, decide_eq_false (by omega), Bool.xor_false]

end Sys2Proof.Machine
end

section
/-! The step of the accumulator in closed form: the window with the symbol below it, and the feedback that the old `top`
selects. From it follow the corner cases of ABSORB, its inverse, and the numbers of the first symbols (40_polymod.md R82,
R88, R89, R92). -/

namespace Sys2Proof.Machine

/-! ### XOR, with 0 written as the model writes it -/

theorem xor_zero_right {w : Nat} (a : BitVec w) : a ^^^ 0 = a := BitVec.xor_zero

theorem zero_xor_left {w : Nat} (a : BitVec w) : 0 ^^^ a = a := BitVec.zero_xor

theorem xor_xor_self_right {w : Nat} (a b : BitVec w) : a ^^^ b ^^^ b = a := by
  rw [BitVec.xor_assoc, BitVec.xor_self, BitVec.xor_zero]

theorem xor_xor_self_left {w : Nat} (a b : BitVec w) : a ^^^ (a ^^^ b) = b := by
  rw [← BitVec.xor_assoc, BitVec.xor_self, BitVec.zero_xor]

/-! ### Step 2 in the forms of the spec (40_polymod.md R82) -/

/-- Step 2 is the concatenation `{c[34:0], v}`. -/
theorem shiftIn_eq_append (c : Acc) (v : Sym) : shiftIn c v = window c ++ v := by
  refine BitVec.eq_of_getLsbD_eq fun k hk => ?_
  rw [shiftIn_getLsbD _ _ hk, BitVec.getLsbD_append]
  split
  · rfl
  · rw [window_getLsbD _ (by omega)]

/-- The five bits that the 40-bit shift drops need no mask. -/
theorem shiftIn_eq_shiftLeft (c : Acc) (v : Sym) : shiftIn c v = (c <<< 5) ^^^ v.setWidth 40 := by
  refine BitVec.eq_of_getLsbD_eq fun k hk => ?_
  rw [shiftIn_getLsbD _ _ hk, BitVec.getLsbD_xor, BitVec.getLsbD_shiftLeft, ← zext, zext_getLsbD]
  by_cases h : k < 5
  · simp [h]
  · simp [h, hk, BitVec.getLsbD_of_ge v k (by omega)]

theorem window_setWidth (c : Acc) : (window c).setWidth 40 = c &&& 0x07ffffffff := by
  have hmask : (0x07ffffffff : Acc).toNat = 2 ^ 35 - 1 := rfl
  rw [← BitVec.toNat_inj, BitVec.toNat_and, hmask, Nat.and_two_pow_sub_one_eq_mod, window, BitVec.toNat_setWidth,
    BitVec.extractLsb'_toNat]
  omega

theorem shiftIn_eq_masked (c : Acc) (v : Sym) : ((c &&& 0x07ffffffff) <<< 5) ^^^ v.setWidth 40 = shiftIn c v := by
  rw [← window_setWidth, shiftIn, zext]

/-- Settles O28: step 2 as a concatenation, and the feedback with its table. -/
theorem stepIsConcatenationXorFeedback : Obligations.StepIsConcatenationXorFeedback := by
  refine ⟨fun c v => ?_, feedback_eq, feedback_xor, by decide⟩
  rw [stepAcc_eq, shiftIn_eq_append, top, window]

/-! ### The step as a number (40_polymod.md R89) -/

theorem top_toNat (c : Acc) : (top c).toNat = c.toNat / 2 ^ 35 := by
  rw [top, BitVec.extractLsb'_toNat, Nat.shiftRight_eq_div_pow, Nat.mod_eq_of_lt (by omega)]

theorem top_eq_zero_iff (c : Acc) : top c = 0 ↔ c.toNat < 2 ^ 35 := by
  have h0 : (0 : Sym).toNat = 0 := rfl
  rw [← BitVec.toNat_inj, top_toNat, h0]
  omega

theorem shiftIn_toNat (c : Acc) (v : Sym) : (shiftIn c v).toNat = 32 * (c.toNat % 2 ^ 35) + v.toNat := by
  rw [shiftIn_eq_append, BitVec.toNat_append, ← Nat.shiftLeft_add_eq_or_of_lt v.isLt, window,
    BitVec.extractLsb'_toNat, Nat.shiftLeft_eq, Nat.shiftRight_zero]
  omega

theorem stepAcc_of_top_zero {c : Acc} (h : top c = 0) (v : Sym) : stepAcc c v = shiftIn c v := by
  rw [stepAcc_eq, h, feedback_zero, xor_zero_right]

/-- Below 2^35 no generator is applied. -/
theorem stepAcc_toNat_of_lt {c : Acc} (h : c.toNat < 2 ^ 35) (v : Sym) :
    (stepAcc c v).toNat = 32 * c.toNat + v.toNat := by
  rw [stepAcc_of_top_zero ((top_eq_zero_iff c).mpr h), shiftIn_toNat, Nat.mod_eq_of_lt h]

/-- A sequence as a number in base 32, first symbol highest. -/
def symbolsNumber (s : List Sym) : Nat :=
  ((List.range s.length).map fun i => (s.getD i 0).toNat * 2 ^ (5 * (s.length - 1 - i))).sum

theorem symbolsNumber_nil : symbolsNumber [] = 0 := rfl

theorem symbolsNumber_cons (v : Sym) (s : List Sym) :
    symbolsNumber (v :: s) = v.toNat * 2 ^ (5 * s.length) + symbolsNumber s := by
  rw [symbolsNumber, symbolsNumber, List.length_cons, List.range_succ_eq_map, List.map_cons, List.map_map,
    List.sum_cons]
  congr 2
  refine List.map_congr_left fun i _ => ?_
  rw [Function.comp_apply, Nat.succ_eq_add_one, List.getD_cons_succ,
    show s.length + 1 - 1 - (i + 1) = s.length - 1 - i by omega]

theorem symbolsNumber_lt (s : List Sym) : symbolsNumber s < 2 ^ (5 * s.length) := by
  induction s with
  | nil => exact Nat.zero_lt_one
  | cons v s ih =>
    have hv : v.toNat * 2 ^ (5 * s.length) ≤ 31 * 2 ^ (5 * s.length) := Nat.mul_le_mul_right _ (by omega)
    rw [symbolsNumber_cons, List.length_cons, Nat.mul_succ, Nat.pow_add]
    omega

/-- As long as they fit, the symbols stand behind the old accumulator as one number. -/
theorem absorbAll_toNat {c : Acc} {s : List Sym} (h : (c.toNat + 1) * 2 ^ (5 * s.length) ≤ 2 ^ 40) :
    (absorbAll c s).toNat = c.toNat * 2 ^ (5 * s.length) + symbolsNumber s := by
  induction s generalizing c with
  | nil => rw [absorbAll_nil, symbolsNumber_nil, List.length_nil, Nat.mul_zero, Nat.pow_zero, Nat.mul_one, Nat.add_zero]
  | cons v s ih =>
    have hplace : 2 ^ (5 * (v :: s).length) = 32 * 2 ^ (5 * s.length) := by
      rw [List.length_cons, Nat.mul_succ, Nat.pow_add, Nat.mul_comm]
    rw [hplace, ← Nat.mul_assoc] at h
    have hone : 1 ≤ 2 ^ (5 * s.length) := Nat.two_pow_pos _
    have hlt : c.toNat < 2 ^ 35 := by
      have hle := Nat.le_trans (Nat.mul_le_mul_left ((c.toNat + 1) * 32) hone) h
      omega
    have hstep := stepAcc_toNat_of_lt hlt v
    have hfits : ((stepAcc c v).toNat + 1) * 2 ^ (5 * s.length) ≤ 2 ^ 40 :=
      Nat.le_trans (Nat.mul_le_mul_right _ (by omega)) h
    rw [absorbAll_cons, ih hfits, hstep, symbolsNumber_cons, hplace, Nat.add_mul, Nat.mul_comm 32 c.toNat,
      Nat.mul_assoc, Nat.add_assoc]

/-- Up to seven symbols stand behind the seed bit as one number. -/
theorem stateOf_toNat {s : List Sym} (h : s.length ≤ 7) :
    (stateOf s).toNat = 2 ^ (5 * s.length) + symbolsNumber s := by
  have hseed : Config.seed.toNat = 1 := rfl
  have hfits : 2 ^ (5 * s.length) ≤ 2 ^ 35 := Nat.pow_le_pow_right Nat.two_pos (by omega)
  have hroom : (Config.seed.toNat + 1) * 2 ^ (5 * s.length) ≤ 2 ^ 40 := by
    rw [hseed]
    omega
  rw [stateOf, absorbAll_toNat hroom, hseed, Nat.one_mul]

theorem stateOf_lt {s : List Sym} (h : s.length ≤ 7) : (stateOf s).toNat < 2 ^ (5 * s.length + 1) := by
  have hlow := symbolsNumber_lt s
  rw [stateOf_toNat h, Nat.pow_succ]
  omega

/-- Settles O29: the seed bit reaches `top` behind seven symbols, and not before. -/
theorem noFeedbackBeforeTheEighthSymbol : Obligations.NoFeedbackBeforeTheEighthSymbol := by
  refine ⟨fun c v h => ⟨stepAcc_toNat_of_lt h v, by omega⟩, fun s => stateOf_toNat, fun s h => ?_, fun s h => ?_⟩
  · have hfit : 2 ^ (5 * s.length + 1) ≤ 2 ^ 31 := Nat.pow_le_pow_right Nat.two_pos (by omega)
    have hlt := stateOf_lt (Nat.le_of_lt h)
    exact (top_eq_zero_iff _).mpr (by omega)
  · have hval := stateOf_toNat (Nat.le_of_eq h)
    have hlt := stateOf_lt (Nat.le_of_eq h)
    rw [h] at hval hlt
    refine ⟨hlt, BitVec.eq_of_toNat_eq ?_⟩
    have h1 : (1 : Sym).toNat = 1 := rfl
    rw [top_toNat, h1]
    omega

/-! ### ABSORB and its corner cases (40_polymod.md R82) -/

/-- The five conditional XORs commute. -/
theorem foldl_applyGenerator_perm (t : Sym) (c1 : Acc) {order : List (Fin 5)} (h : order.Perm [0, 1, 2, 3, 4]) :
    order.foldl (applyGenerator t) c1 = applyGenerators t c1 := by
  refine h.foldl_eq' (fun i _ j _ a => ?_) c1
  simp only [applyGenerator_eq]
  ac_rfl

/-- Bit j of the old `c >>> 35` is the bit of `top` that selects a generator. -/
theorem shiftRight_getLsbD (c : Acc) {j : Nat} (hj : j < 5) : (c >>> 35).getLsbD j = (top c).getLsbD j := by
  rw [BitVec.getLsbD_ushiftRight, top_getLsbD c hj]

/-- Cell n of a fixed point of `ABSORB 0` whose `top` is `t`: each cell is the one below it with the feedback's cell
added, and cell 0 is the feedback's, which is `t`. -/
def fixedPointCell (t : Sym) : Nat → Sym
  | 0 => t
  | n + 1 => fixedPointCell t n ^^^ cell (feedback t) (n + 1)

theorem cell_of_stepAcc_zero_eq_self {c : Acc} (h : stepAcc c 0 = c) {n : Nat} (hn : n ≤ 7) :
    cell c n = fixedPointCell (top c) n := by
  have hcell (k : Nat) : cell c k = cell (shiftIn c 0) k ^^^ cell (feedback (top c)) k := by
    rw [← cell_seven, ← cell_stepAcc, h]
  induction n with
  | zero => rw [hcell, cell_shiftIn_zero, cell, feedback_low, zero_xor_left, fixedPointCell]
  | succ n ih => rw [hcell, cell_shiftIn_succ c 0 (by omega), ih (by omega), fixedPointCell]

/-- Cell 7 is `top` again, for no `top` but 0. -/
theorem eq_zero_of_eq_fixedPointCell_seven : ∀ t : Sym, t = fixedPointCell t 7 → t = 0 := by
  decide

theorem top_of_stepAcc_zero_eq_self {c : Acc} (h : stepAcc c 0 = c) : top c = 0 :=
  eq_zero_of_eq_fixedPointCell_seven _ (cell_of_stepAcc_zero_eq_self h (Nat.le_refl 7))

theorem stepAcc_zero_eq_self_iff (c : Acc) : stepAcc c 0 = c ↔ c = 0 := by
  refine ⟨fun h => ?_, fun h => by rw [h]; rfl⟩
  have hlt := (top_eq_zero_iff c).mp (top_of_stepAcc_zero_eq_self h)
  have hval := stepAcc_toNat_of_lt hlt 0
  rw [h] at hval
  refine BitVec.eq_of_toNat_eq ?_
  have h0 : (0 : Acc).toNat = 0 := rfl
  have hv : (0 : Sym).toNat = 0 := rfl
  omega

/-- Settles O6: the update in the masked form, and the corner cases. -/
theorem absorbWritesTheStepOfTheAccumulator : Obligations.AbsorbWritesTheStepOfTheAccumulator := by
  refine ⟨fun v => ?_, fun v s => ⟨?_, ?_, fun order horder => ?_⟩, fun s v h => ?_, fun s v h => ?_,
    fun s v h => ?_, fun s => ?_⟩
  · rw [← zero_append_ofNat v.isLt, BitVec.ofNat_toNat, BitVec.setWidth_eq]
    exact decodeCmd_encode_absorb v
  · rw [shiftIn_eq_masked, shiftIn_eq_append, window]
  · simp (disch := decide) only [shiftRight_getLsbD, shiftIn_eq_masked]
    rw [exec_absorb, stepAcc_eq, feedback_eq]
    simp only [BitVec.xor_assoc]
    rfl
  · rw [shiftIn_eq_masked, foldl_applyGenerator_perm _ _ horder]
    rfl
  · exact ⟨_, exec_absorb v s, stepAcc_toNat_of_lt h v⟩
  · rw [exec_absorb, stepAcc_eq, h, shiftIn_eq_shiftLeft]
    rfl
  · rw [exec_absorb, h, stepAcc_zero]
    rfl
  · rw [exec_absorb, Host.Outcome.next.injEq, ← stepAcc_zero_eq_self_iff]
    exact ⟨congrArg State.c, fun h => congrArg s.setC h⟩

/-! ### The inverse (40_polymod.md R92) -/

/-- `top` is read back from the low five bits. -/
theorem stepAcc_low (c : Acc) (v : Sym) : (stepAcc c v).extractLsb' 0 5 = v ^^^ top c := by
  have h := cell_stepAcc c v 0
  rwa [cell_shiftIn_zero, cell_seven, cell, cell, Nat.mul_zero, feedback_low] at h

theorem top_append_window (c : Acc) : top c ++ window c = c := by
  have h : top c ++ window c = c.extractLsb' 0 40 := BitVec.extractLsb'_append_extractLsb'_eq_extractLsb' rfl
  rw [h, BitVec.extractLsb'_eq_self]

theorem high_append_low (a : Acc) : a.extractLsb' 5 35 ++ a.extractLsb' 0 5 = a := by
  have h : a.extractLsb' 5 35 ++ a.extractLsb' 0 5 = a.extractLsb' 0 40 :=
    BitVec.extractLsb'_append_extractLsb'_eq_extractLsb' rfl
  rw [h, BitVec.extractLsb'_eq_self]

theorem top_append (t : Sym) (w : Window) : top (t ++ w) = t := BitVec.extractLsb'_append_eq_left

theorem window_append (t : Sym) (w : Window) : window (t ++ w) = w := BitVec.extractLsb'_append_eq_right

/-- The inverse, told from the `top` it reads back. -/
theorem unstepAcc_eq {c' : Acc} {v t : Sym} (ht : c'.extractLsb' 0 5 ^^^ v = t) :
    unstepAcc c' v = t ++ (c' ^^^ feedback t).extractLsb' 5 35 := by
  have hshift (a : Acc) : (a >>> 5).extractLsb' 0 35 = a.extractLsb' 5 35 := by
    refine BitVec.eq_of_getLsbD_eq fun k hk => ?_
    simp [hk]
  rw [unstepAcc, ht, hshift]

theorem low_xor_eq_top (c : Acc) (v : Sym) : (stepAcc c v).extractLsb' 0 5 ^^^ v = top c := by
  rw [stepAcc_low, BitVec.xor_comm, xor_xor_self_left]

theorem unstepAcc_stepAcc (c : Acc) (v : Sym) : unstepAcc (stepAcc c v) v = c := by
  have hoff : stepAcc c v ^^^ feedback (top c) = window c ++ v := by
    rw [stepAcc_eq, xor_xor_self_right, shiftIn_eq_append]
  rw [unstepAcc_eq (low_xor_eq_top c v), hoff, BitVec.extractLsb'_append_eq_left, top_append_window]

theorem stepAcc_unstepAcc (c' : Acc) (v : Sym) : stepAcc (unstepAcc c' v) v = c' := by
  obtain ⟨t, ht⟩ : ∃ t, c'.extractLsb' 0 5 ^^^ v = t := ⟨_, rfl⟩
  have hlow : (c' ^^^ feedback t).extractLsb' 0 5 = v := by
    rw [BitVec.extractLsb'_xor, feedback_low, ← ht, xor_xor_self_left]
  have hjoin := high_append_low (c' ^^^ feedback t)
  rw [hlow] at hjoin
  rw [unstepAcc_eq ht, stepAcc_eq, top_append, shiftIn_eq_append, window_append, hjoin, xor_xor_self_right]

/-- Settles O32: the two are inverse to each other, both ways round. -/
theorem absorbIsInvertible : Obligations.AbsorbIsInvertible :=
  ⟨feedback_low, fun c v => ⟨(low_xor_eq_top c v).symm, unstepAcc_stepAcc c v⟩, stepAcc_unstepAcc⟩

end Sys2Proof.Machine
end

section
/-! What linearity over XOR says of whole sequences: the symbols' contributions add up, and a change of one symbol adds
its own, which is never 0 (40_polymod.md R90, R91, R93). -/

namespace Sys2Proof.Machine

/-! ### The contributions of the symbols (40_polymod.md R90) -/

/-- `L` is absorbing the symbol 0. -/
theorem linPow_eq_absorbAll (n : Nat) (a : Acc) : linPow n a = absorbAll a (List.replicate n 0) := by
  induction n generalizing a with
  | zero => rfl
  | succ n ih => rw [linPow_succ, ih, List.replicate_succ, absorbAll_cons]

theorem linPow_xor (n : Nat) (a b : Acc) : linPow n (a ^^^ b) = linPow n a ^^^ linPow n b := by
  have h := absorbAll_xor a b (List.replicate n 0)
  rw [List.length_replicate] at h
  simp only [linPow_eq_absorbAll, h]

theorem absorbAll_xor_linPow (a b : Acc) (s : List Sym) :
    absorbAll (a ^^^ b) s = linPow s.length a ^^^ absorbAll b s := by
  rw [absorbAll_xor, linPow_eq_absorbAll]

/-- A symbol enters the accumulator by XOR. -/
theorem stepAcc_eq_xor_setWidth (a : Acc) (v : Sym) : stepAcc a v = stepAcc a 0 ^^^ v.setWidth 40 := by
  have h := stepAcc_xor a 0 0 v
  rwa [stepAcc_zero, xor_zero_right, zero_xor_left] at h

theorem stepAcc_xor_left (a b : Acc) (v : Sym) : stepAcc (a ^^^ b) v = stepAcc a v ^^^ stepAcc b 0 := by
  have h := stepAcc_xor a b v 0
  rwa [xor_zero_right] at h

/-- The contribution of position `i` of a sequence, added to `acc`. -/
def addContribution (s : List Sym) (acc : Acc) (i : Nat) : Acc :=
  acc ^^^ linPow (s.length - 1 - i) ((s.getD i 0).setWidth 40)

theorem addContribution_cons_zero (v : Sym) (s : List Sym) (acc : Acc) :
    addContribution (v :: s) acc 0 = acc ^^^ linPow s.length (v.setWidth 40) := rfl

theorem addContribution_cons_succ (v : Sym) (s : List Sym) (acc : Acc) (i : Nat) :
    addContribution (v :: s) acc (i + 1) = addContribution s acc i := by
  rw [addContribution, addContribution, List.getD_cons_succ, List.length_cons,
    show s.length + 1 - 1 - (i + 1) = s.length - 1 - i by omega]

/-- Absorbing a sequence adds the contributions of its positions to that of the old accumulator. -/
theorem absorbAll_eq_contributions (c : Acc) (s : List Sym) :
    absorbAll c s = (List.range s.length).foldl (addContribution s) (linPow s.length c) := by
  induction s generalizing c with
  | nil => rfl
  | cons v s ih =>
    have hfirst : addContribution (v :: s) (linPow (s.length + 1) c) 0 = linPow s.length (stepAcc c v) := by
      rw [addContribution_cons_zero, linPow_succ, ← linPow_xor, ← stepAcc_eq_xor_setWidth]
    rw [absorbAll_cons, ih, List.length_cons, List.range_succ_eq_map, List.foldl_cons, hfirst, List.foldl_map]
    simp only [Nat.succ_eq_add_one, addContribution_cons_succ]

/-- Settles O30: linearity, its two special cases, and the contributions to the seed. -/
theorem stepIsLinearOverXor : Obligations.StepIsLinearOverXor :=
  ⟨stepAcc_xor, stepAcc_eq_xor_setWidth, stepAcc_xor_left, absorbAll_eq_contributions Config.seed⟩

/-- Settles O31: what eight symbols do to any accumulator, `state(s)` among them. -/
theorem lastEightSymbolsEnterUnmixed : Obligations.LastEightSymbolsEnterUnmixed := by
  intro s e
  rw [stateOf_append, stateOf_append, absorbAll_lanes]

/-! ### One changed symbol (40_polymod.md R93) -/

theorem compute_xor_compute (s t : List Sym) : compute s ^^^ compute t = stateOf s ^^^ stateOf t := by
  rw [compute, compute, BitVec.xor_comm (stateOf t), BitVec.xor_assoc, xor_xor_self_left]

/-- Two accumulators that absorb the same symbols stay as far apart as `L` keeps their difference. -/
theorem absorbAll_xor_absorbAll (a b : Acc) (s : List Sym) :
    absorbAll a s ^^^ absorbAll b s = linPow s.length (a ^^^ b) := by
  calc absorbAll a s ^^^ absorbAll b s
    _ = absorbAll (a ^^^ b ^^^ b) s ^^^ absorbAll b s := by rw [xor_xor_self_right]
    _ = linPow s.length (a ^^^ b) := by rw [absorbAll_xor_linPow, xor_xor_self_right]

theorem stepAcc_xor_stepAcc (c : Acc) (a b : Sym) : stepAcc c a ^^^ stepAcc c b = (a ^^^ b).setWidth 40 := by
  rw [← stepAcc_xor, BitVec.xor_self]
  exact stepAcc_zero _

/-- A step merges no two accumulators (40_polymod.md R92). -/
theorem stepAcc_injective (v : Sym) : Function.Injective (stepAcc · v) :=
  Function.LeftInverse.injective (g := (unstepAcc · v)) fun c => unstepAcc_stepAcc c v

theorem linPow_eq_zero_iff (n : Nat) (a : Acc) : linPow n a = 0 ↔ a = 0 := by
  induction n generalizing a with
  | zero => exact Iff.rfl
  | succ n ih =>
    have h0 : stepAcc 0 0 = 0 := rfl
    rw [linPow_succ, ih]
    exact ⟨fun h => stepAcc_injective 0 (h.trans h0.symm), fun h => by rw [h, h0]⟩

theorem setWidth_xor_ne_zero {a b : Sym} (h : a ≠ b) : (a ^^^ b).setWidth 40 ≠ (0 : Acc) := by
  intro h0
  have hback := congrArg (BitVec.setWidth 5) h0
  rw [BitVec.setWidth_setWidth_of_le _ (by decide), BitVec.setWidth_eq] at hback
  exact h (BitVec.xor_eq_zero_iff.mp hback)

/-- Settles O33: the difference that the changed symbol makes is carried through the symbols after it, and `L` takes no
difference to 0. -/
theorem oneChangedSymbolAlwaysShows : Obligations.OneChangedSymbolAlwaysShows := by
  intro before after a b hab
  have hdiff : compute (before ++ a :: after) ^^^ compute (before ++ b :: after) =
      linPow after.length ((a ^^^ b).setWidth 40) := by
    rw [compute_xor_compute, stateOf_append, stateOf_append, absorbAll_cons, absorbAll_cons, absorbAll_xor_absorbAll,
      stepAcc_xor_stepAcc]
  refine ⟨hdiff, fun heq => ?_⟩
  rw [heq, BitVec.xor_self] at hdiff
  exact setWidth_xor_ne_zero hab ((linPow_eq_zero_iff _ _).mp hdiff.symm)

end Sys2Proof.Machine
end

section
/-! Each bit of the step by the generators' columns (40_polymod.md R94). -/

namespace Sys2Proof.Machine

/-- The printed tap sets are the columns of the generator table. -/
theorem tapTable_eq_columns : ∀ k : Fin 40, tapTable.getD k.val [] =
    (([0, 1, 2, 3, 4] : List (Fin 5)).filter fun j => (generator j).getLsbD k.val).map Fin.val := by
  decide

theorem applyGenerator_getLsbD (t : Sym) (a : Acc) (j : Fin 5) (k : Nat) :
    (applyGenerator t a j).getLsbD k =
      if (generator j).getLsbD k then a.getLsbD k ^^ t.getLsbD j else a.getLsbD k := by
  rw [applyGenerator]
  cases t.getLsbD j with
  | false => rw [if_neg Bool.false_ne_true, Bool.xor_false, ite_self]
  | true =>
    rw [if_pos rfl, BitVec.getLsbD_xor]
    cases (generator j).getLsbD k with
    | false => rw [Bool.xor_false, if_neg Bool.false_ne_true]
    | true => rw [if_pos rfl]

/-- The generators that reach bit k are those of its column, each selected by its bit of `top`. -/
theorem applyGenerators_top_getLsbD (c a : Acc) (k : Fin 40) :
    (applyGenerators (top c) a).getLsbD k.val =
      (tapTable.getD k.val []).foldl (fun acc j => acc ^^ c.getLsbD (35 + j)) (a.getLsbD k.val) := by
  have hturn (b : Acc) (j : Fin 5) : (applyGenerator (top c) b j).getLsbD k.val =
      if (generator j).getLsbD k.val then b.getLsbD k.val ^^ c.getLsbD (35 + j) else b.getLsbD k.val := by
    rw [applyGenerator_getLsbD, top_getLsbD c j.isLt]
  rw [tapTable_eq_columns, List.foldl_map, List.foldl_filter, applyGenerators]
  exact (List.foldl_hom (BitVec.getLsbD · k.val) fun b j => (hturn b j).symm).symm

/-- Settles O34: step 2 gives each bit its source, and the column of the bit the selected bits of `top`. -/
theorem perBitFormOfStep : Obligations.PerBitFormOfStep := by
  refine ⟨by decide, fun c v k => ?_⟩
  have hsrc : (shiftIn c v).getLsbD k.val = if k.val ≤ 4 then v.getLsbD k.val else c.getLsbD (k.val - 5) := by
    rw [shiftIn_getLsbD c v k.isLt]
    simp only [Nat.lt_succ_iff]
  rw [stepAcc, applyGenerators_top_getLsbD, hsrc]

end Sys2Proof.Machine
end

section
/-! The laws of `encode`: its lanes are slices of the value, the shifting form fills the same lanes, and `decode8` reads
the eight symbols as one number in base 32, which gives them back (41_encode.md R110 to R115). -/

namespace Sys2Proof.Machine

/-! ### The lanes that ENC shows (41_encode.md R110) -/

theorem encodeLanes_getD (x : Acc) {i : Nat} (hi : i < 8) : (encodeLanes x).toList.getD i 0 = lane x i := by
  rw [encodeLanes_toList, List.getD_eq_getElem?_getD, List.getElem?_map, List.getElem?_range hi, Option.map_some,
    Option.getD_some]

/-- Settles O7: the lanes are those of the new level on `e_in`, and bit `k` of it stands in lane `7 - k / 5` at place
`k % 5`. -/
theorem encPutsBigEndianGroupsOnTheLanes : Obligations.EncPutsBigEndianGroupsOnTheLanes := by
  refine fun x s => ⟨s.setEIn x, exec_enc x s, s.setEIn_c x, s.setEIn_inputs x, s.setEIn_eIn x, s.lanes_setEIn x,
    fun i b hi hb => ?_, fun k hk => ?_⟩
  · rw [State.lanes_setEIn, encodeLanes_getD x hi, lane_getLsbD x i hb]
  · exact ⟨7 - k / 5, k % 5, by omega, by omega, by omega, by omega⟩

/-! ### The shifting form (41_encode.md R111) -/

/-- What has been shifted down to the low five bits when lane `n` is the next to fill. -/
theorem shiftRight_low_eq_lane (x : Acc) {n : Nat} (hn : n < 8) :
    (x >>> (5 * (8 - (n + 1)))).extractLsb' 0 5 = lane x n := by
  refine BitVec.eq_of_getLsbD_eq fun b hb => ?_
  rw [lane_getLsbD x n hb, BitVec.getLsbD_extractLsb', BitVec.getLsbD_ushiftRight, decide_eq_true hb, Bool.true_and,
    Nat.zero_add, show 5 * (8 - (n + 1)) = 35 - 5 * n by omega]

/-- With `n` lanes still to fill, the shifting form puts them in front of the lanes already placed. -/
theorem encodeByShifts_eq_lanes (x : Acc) {n : Nat} (hn : n ≤ 8) (out : List Sym) :
    encodeByShifts n (x >>> (5 * (8 - n))) out = (List.range n).map (lane x) ++ out := by
  induction n generalizing out with
  | zero => rfl
  | succ n ih =>
    rw [encodeByShifts, shiftRight_low_eq_lane x hn, ← BitVec.shiftRight_add,
      show 5 * (8 - (n + 1)) + 5 = 5 * (8 - n) by omega, ih (Nat.le_of_succ_le hn), List.range_succ, List.map_append,
      List.append_assoc]
    rfl

/-- Settles O37: the shifting form from the whole value, with all eight lanes to fill. -/
theorem shiftingEncodeIsSlicingEncode : Obligations.ShiftingEncodeIsSlicingEncode := by
  refine fun x => ⟨?_, BitVec.ushiftRight_eq_zero (Nat.le_refl 40)⟩
  have h := encodeByShifts_eq_lanes x (Nat.le_refl 8) []
  rwa [List.append_nil, ← encodeLanes_toList, BitVec.ushiftRight_zero] at h

/-! ### The inverse (41_encode.md R112 to R114) -/

theorem symbolsNumber_cons_div (v : Sym) (s : List Sym) : symbolsNumber (v :: s) / 2 ^ (5 * s.length) = v.toNat := by
  rw [symbolsNumber_cons, Nat.mul_comm, Nat.mul_add_div (Nat.two_pow_pos _), Nat.div_eq_of_lt (symbolsNumber_lt s),
    Nat.add_zero]

/-- Sequences of one length with one number are the same: the first symbol is the quotient by its place value. -/
theorem eq_of_symbolsNumber_eq {s t : List Sym} (hlen : s.length = t.length)
    (h : symbolsNumber s = symbolsNumber t) : s = t := by
  induction s generalizing t with
  | nil => exact (List.length_eq_zero_iff.mp hlen.symm).symm
  | cons v s ih =>
    cases t with
    | nil => cases hlen
    | cons w t =>
      have hst : s.length = t.length := Nat.succ.inj hlen
      have hhead : v.toNat = w.toNat := by
        rw [← symbolsNumber_cons_div v s, h, hst, symbolsNumber_cons_div]
      rw [symbolsNumber_cons, symbolsNumber_cons, hst, hhead] at h
      rw [BitVec.eq_of_toNat_eq hhead, ih hst (Nat.add_left_cancel h)]

/-- `decode8` is the number of its symbols, as it is what eight symbols leave in an accumulator of 0. -/
theorem decode8_toNat (e : Lanes) : (decode8 e).toNat = symbolsNumber e.toList := by
  have hzero : (0 : Acc).toNat = 0 := rfl
  have hfits : ((0 : Acc).toNat + 1) * 2 ^ (5 * e.toList.length) ≤ 2 ^ 40 := by
    show (0 + 1) * 2 ^ (5 * 8) ≤ 2 ^ 40
    decide
  have h := absorbAll_toNat hfits
  rwa [absorbAll_zero_lanes, hzero, Nat.zero_mul, Nat.zero_add] at h

theorem symbolsNumber_toList (e : Lanes) : symbolsNumber e.toList =
    e.eSym0.toNat * 2 ^ 35 + e.eSym1.toNat * 2 ^ 30 + e.eSym2.toNat * 2 ^ 25 + e.eSym3.toNat * 2 ^ 20
      + e.eSym4.toNat * 2 ^ 15 + e.eSym5.toNat * 2 ^ 10 + e.eSym6.toNat * 2 ^ 5 + e.eSym7.toNat := by
  simp [Lanes.toList, symbolsNumber_cons, symbolsNumber_nil, Nat.add_assoc]

theorem decode8_injective : Function.Injective decode8 := by
  intro a b h
  refine Lanes.eq_of_toList (eq_of_symbolsNumber_eq rfl ?_)
  rw [← decode8_toNat, h, decode8_toNat]

/-- `encode` undoes `decode8`, because `decode8` undoes `encode` and is injective. -/
theorem encodeLanes_decode8 (e : Lanes) : encodeLanes (decode8 e) = e :=
  decode8_injective (decode8_encodeLanes (decode8 e))

/-- Settles O38: the length and the range are those of the lanes, the sum is the number in base 32, and the two
inverses. -/
theorem encodeAndReassembleAreInverse : Obligations.EncodeAndReassembleAreInverse :=
  ⟨fun _ => ⟨Lanes.toList_length _, fun l _ => Nat.le_of_lt_succ l.isLt⟩,
    fun e => (decode8_toNat e).trans (symbolsNumber_toList e), decode8_encodeLanes, encodeLanes_decode8⟩

/-! ### Linearity (41_encode.md R115) -/

theorem lane_xor (x y : Acc) (i : Nat) : lane (x ^^^ y) i = lane x i ^^^ lane y i := BitVec.extractLsb'_xor

/-- Settles O39: each lane is a slice, and a slice of an XOR is the XOR of the slices. -/
theorem encodeIsLinearLaneByLane : Obligations.EncodeIsLinearLaneByLane := by
  intro x y
  rw [encodeLanes_toList, encodeLanes_toList, encodeLanes_toList, List.zipWith_map, List.zipWith_self]
  exact List.map_congr_left fun i _ => lane_xor x y i

end Sys2Proof.Machine
end

section
/-! The validity law: eight symbols `e` behind `s` take `compute` of `s` and the placeholders to its XOR with
`decode8(e)`, which is 0 for the encoded checksum and for nothing else (42_host_protocol.md R130, R131). -/

namespace Sys2Proof.Machine

/-- Every eight symbols are lanes in position order (41_encode.md R110). -/
theorem exists_lanes : ∀ {e : List Sym}, e.length = 8 → ∃ l : Lanes, l.toList = e
  | [e0, e1, e2, e3, e4, e5, e6, e7], _ => ⟨⟨e0, e1, e2, e3, e4, e5, e6, e7⟩, rfl⟩

/-- Eight symbols in place of the placeholders enter `compute` as one 40-bit XOR (40_polymod.md R91). -/
theorem compute_append_lanes (s : List Sym) (l : Lanes) : compute (s ++ l.toList) = sealValue s ^^^ decode8 l := by
  have hstate : stateOf (s ++ l.toList) = stateOf (s ++ placeholders) ^^^ decode8 l := lastEightSymbolsEnterUnmixed s l
  rw [sealValue, compute, compute, hstate, BitVec.xor_assoc, BitVec.xor_comm (decode8 l), ← BitVec.xor_assoc]

theorem decode8_eq_iff (l : Lanes) (x : Acc) : decode8 l = x ↔ l = encodeLanes x :=
  ⟨fun h => by rw [← h, encodeLanes_decode8], fun h => by rw [h, decode8_encodeLanes]⟩

/-- The lanes that seal a sequence are those of its checksum, and no others. -/
theorem compute_append_lanes_eq_zero_iff (s : List Sym) (l : Lanes) :
    compute (s ++ l.toList) = 0 ↔ l = encodeLanes (sealValue s) := by
  calc compute (s ++ l.toList) = 0
    _ ↔ sealValue s = decode8 l := by rw [compute_append_lanes]; exact BitVec.xor_eq_zero_iff
    _ ↔ l = encodeLanes (sealValue s) := eq_comm.trans (decode8_eq_iff l _)

theorem compute_sealedSequence (s : List Sym) : compute (sealedSequence s) = 0 :=
  (compute_append_lanes_eq_zero_iff s _).mpr rfl

/-- Settles O43: a change of one symbol changes `compute`, and every eight symbols are lanes, which seal only as those
of the checksum. -/
theorem sealIsUniqueAndShowsOneChange : Obligations.SealIsUniqueAndShowsOneChange := by
  refine ⟨fun before after a b hab ha hb => ?_, fun s e he => ?_⟩
  · obtain ⟨-, hshows⟩ := oneChangedSymbolAlwaysShows before after a b hab
    exact hshows (ha.trans hb.symm)
  · obtain ⟨l, rfl⟩ := exists_lanes he
    exact (compute_append_lanes_eq_zero_iff s l).trans ⟨congrArg Lanes.toList, Lanes.eq_of_toList⟩

end Sys2Proof.Machine
end

section
/-! The pseudo-instructions run on the machine: their expansions only write `c`, up to the CHK that samples `p_chk` and,
in a SEAL, the ENC of the value sampled (30_encoding.md R71, 42_host_protocol.md R127 to R130). -/

namespace Sys2Proof.Machine

/-! ### What a basic line does to the session (30_encoding.md R70) -/

/-- The host's session with another value in the accumulator of its block. -/
def Session.setC (h : Session) (v : Acc) : Session := { h with block := h.block.setC v }

/-- The session after ENC x: the level on `e_in` is x, and the lanes have been read. -/
def Session.enc (h : Session) (x : Acc) : Session := Session.readLanes { h with block := h.block.setEIn x }

theorem runBasic_init (h : Session) : runBasic .init h = .next (h.setC Config.seed) := issue_init h

theorem runBasic_absorb (h : Session) (v : Sym) :
    runBasic (.absorb v.toNat) h = .next (h.setC (stepAcc h.block.c v)) := by
  simp only [runBasic, symbolOfNat_toNat, issue_absorb, Session.setC]

theorem runBasic_chk (h : Session) (name : Option Name) : runBasic (.chk name) h = .next (h.sample name) := rfl

theorem runBasic_enc {h : Session} {x : EncOperand} {a : Acc} (hx : resolveEnc h.names x = .ok a) :
    runBasic (.enc x) h = .next (h.enc a) := by
  simp only [runBasic, hx, issue_enc, Session.enc]

/-- The name just given by a CHK stands for the value sampled. -/
theorem resolveEnc_sample (h : Session) (n : Name) :
    resolveEnc (h.sample (some n)).names (.named n) = .ok h.block.pChk :=
  lookupName_cons_self h.names n h.block.pChk

/-! ### Runs of ABSORB lines -/

/-- The lines `ABSORB s[0]; ABSORB s[1]; ...` (30_encoding.md R71). -/
def absorbLines (s : List Sym) : List Basic := (s.map (·.toNat)).map .absorb

theorem absorbLines_append (s t : List Sym) : absorbLines (s ++ t) = absorbLines s ++ absorbLines t := by
  rw [absorbLines, List.map_append, List.map_append, absorbLines, absorbLines]

theorem runBasics_absorbLines (s : List Sym) (bs : List Basic) (h : Session) :
    runBasics (absorbLines s ++ bs) h = runBasics bs (h.setC (absorbAll h.block.c s)) := by
  induction s generalizing h with
  | nil => rfl
  | cons v s ih => exact (runBasics_cons _ (runBasic_absorb h v)).trans (ih _)

/-- INIT and the symbols of `s` leave `state(s)` in `c`, whatever the session was (40_polymod.md R85). -/
theorem runBasics_init_absorbLines (s : List Sym) (bs : List Basic) (h : Session) :
    runBasics (.init :: absorbLines s ++ bs) h = runBasics bs (h.setC (stateOf s)) :=
  (runBasics_cons _ (runBasic_init h)).trans (runBasics_absorbLines s bs _)

/-! ### The pseudo-instructions (30_encoding.md R71) -/

theorem expandLine_compute (s : List Sym) :
    expandLine (.compute (s.map (·.toNat))) = .init :: absorbLines s ++ [.chk none] := rfl

/-- SEAL absorbs the placeholders behind `s`. -/
theorem expandLine_seal (s : List Sym) : expandLine (.seal (s.map (·.toNat))) =
    .init :: absorbLines (s ++ placeholders) ++ [.chk (some sealName), .enc (.named sealName)] := by
  rw [absorbLines_append]
  rfl

theorem all_symbolInRange_toNat (s : List Sym) : (s.map (·.toNat)).all symbolInRange = true := by
  rw [List.all_map, List.all_eq_true]
  exact fun v _ => decide_eq_true v.isLt

theorem compute_wellFormed (s : List Sym) : (Line.compute (s.map (·.toNat))).wellFormed = true :=
  all_symbolInRange_toNat s

theorem seal_wellFormed (s : List Sym) : (Line.seal (s.map (·.toNat))).wellFormed = true :=
  all_symbolInRange_toNat s

theorem runLine_compute (h : Session) (s : List Sym) :
    runLine (.compute (s.map (·.toNat))) h = .next ((h.setC (stateOf s)).sample none) := by
  rw [runLine_of_wellFormed h (compute_wellFormed s), expandLine_compute, runBasics_init_absorbLines,
    runBasics_cons _ (runBasic_chk _ _), runBasics_nil]

/-- `VERIFY t` is `COMPUTE t`. -/
theorem runLine_verify (h : Session) (t : List Nat) : runLine (.verify t) h = runLine (.compute t) h := rfl

theorem pChk_setC_stateOf (h : Session) (s : List Sym) : (h.setC (stateOf s)).block.pChk = compute s := rfl

/-- SEAL samples the checksum under its name, and the ENC behind it has this value as operand. -/
theorem runLine_seal (h : Session) (s : List Sym) : runLine (.seal (s.map (·.toNat))) h =
    .next (((h.setC (stateOf (s ++ placeholders))).sample (some sealName)).enc (sealValue s)) := by
  rw [runLine_of_wellFormed h (seal_wellFormed s), expandLine_seal, runBasics_init_absorbLines,
    runBasics_cons _ (runBasic_chk _ _), runBasics_cons _ (runBasic_enc (resolveEnc_sample _ sealName)), runBasics_nil,
    pChk_setC_stateOf, sealValue]

/-- Settles O40: the INIT of the expansion forgets the old `c`, and the CHK samples `state(s) XOR 1`. -/
theorem computeLineSamplesCompute : Obligations.ComputeLineSamplesCompute :=
  ⟨fun _ => rfl, fun h s => ⟨runLine_compute h s, runLine_verify h _⟩⟩

/-- `c` is `compute(s) XOR 1` (40_polymod.md R83, R86). -/
theorem stateOf_eq_compute_xor (s : List Sym) : stateOf s = compute s ^^^ 1 :=
  (xor_xor_self_right (stateOf s) finalXor).symm

/-- Settles O41: what the session shows after the CHK and the ENC of a SEAL. -/
theorem sealLineSamplesAndEncodesTheChecksum : Obligations.SealLineSamplesAndEncodesTheChecksum :=
  ⟨fun _ => rfl, fun _ => rfl,
    fun h s => ⟨_, runLine_seal h s, rfl, rfl, stateOf_eq_compute_xor (s ++ placeholders), rfl, rfl⟩⟩

/-- Settles O42: `compute` of a sealed sequence is 0, and VERIFY samples it. -/
theorem sealedSequencesVerifyToZero : Obligations.SealedSequencesVerifyToZero := by
  refine fun s => ⟨compute_sealedSequence s, fun h => ⟨_, runLine_compute h (sealedSequence s), ?_⟩⟩
  exact congrArg (h.samples ++ [·]) (compute_sealedSequence s)

/-- Settles O47: `p_chk` is the checksum after COMPUTE, and still is after the ENC of a SEAL, which writes no `c`. -/
theorem wiredHostReadsTheSealWithoutEnc : Obligations.WiredHostReadsTheSealWithoutEnc :=
  ⟨fun _ => rfl, fun h s => ⟨_, runLine_compute h (s ++ placeholders), rfl, rfl, rfl⟩,
    fun h s => ⟨_, runLine_seal h s, rfl⟩⟩

end Sys2Proof.Machine
end

section
/-! Nothing in the block stops, instances do not reach one another, and only the boundary over numbers refuses
(60_exceptions.md R140, R142, R143, R151; 70_reset_and_hazards.md R170). -/

namespace Sys2Proof.Machine

open Sys2Proof.Safety (StepCompletes SafeFrom)

/-! ### Every run completes (60_exceptions.md R140, R143, 70_reset_and_hazards.md R170) -/

theorem exec_completes (i : Instr) (s : State) : ∃ t, exec i s = .next t := by
  cases i with
  | absorb v => exact ⟨_, exec_absorb v s⟩
  | init => exact ⟨_, exec_init s⟩
  | enc x => exact ⟨_, exec_enc x s⟩

theorem stepCompletes (s : State) : StepCompletes s := by
  cases hi : s.inputs with
  | nil => exact ⟨_, step_nil hi⟩
  | cons ev rest => exact ⟨_, step_cons hi⟩

theorem safeFrom (s : State) : SafeFrom s := by
  intro n
  induction n generalizing s with
  | zero => exact ⟨s, runsTo_zero s⟩
  | succ n ih =>
    obtain ⟨t, ht⟩ := stepCompletes s
    obtain ⟨u, hu⟩ := ih t
    exact ⟨u, (runsTo_succ_iff ht n u).mpr hu⟩

/-- Settles O12: an instruction and a step answer a next state, and so does a run, by induction on its length. -/
theorem everyRunCompletes : Obligations.EveryRunCompletes :=
  ⟨exec_completes, stepCompletes, safeFrom⟩

/-! ### Instances (60_exceptions.md R151) -/

/-- A step at position `n` replaces the block there by its own next state and nothing else. -/
theorem stepInstance_eq_set {ss : List State} {n : Nat} {s t : State} (hs : ss[n]? = some s)
    (ht : step s = .next t) : stepInstance n ss = .next (ss.set n t) := by
  induction ss generalizing n with
  | nil => cases hs
  | cons r rest ih =>
    cases n with
    | zero =>
      obtain rfl : r = s := Option.some.inj hs
      simp only [stepInstance, ht, List.set_cons_zero]
    | succ n => simp only [stepInstance, ih hs, List.set_cons_succ]

/-- Settles O23: the list of instances after the step differs from the one before at `n` only. -/
theorem instancesAreIndependent : Obligations.InstancesAreIndependent := by
  intro ss n s hs
  obtain ⟨t, ht⟩ := stepCompletes s
  obtain ⟨hn, -⟩ := List.getElem?_eq_some_iff.mp hs
  exact ⟨t, ss.set n t, ht, stepInstance_eq_set hs ht, List.getElem?_set_self hn, List.length_set,
    fun m hm => List.getElem?_set_ne hm.symm⟩

/-! ### The boundary over numbers (60_exceptions.md R142) -/

theorem symbolsOfNats_ok {s : List Nat} (h : ∀ v ∈ s, v < 32) :
    symbolsOfNats s = .ok (s.map (BitVec.ofNat 5)) := by
  induction s with
  | nil => rfl
  | cons v vs ih =>
    obtain ⟨hv, hvs⟩ := List.forall_mem_cons.mp h
    simp only [symbolsOfNats, symbolOfNat_ok hv, ih hvs, List.map_cons]

/-- One number that is no Symbol has the whole list refused, wherever it stands. -/
theorem symbolsOfNats_error {s : List Nat} (h : ∃ v ∈ s, 32 ≤ v) : symbolsOfNats s = .error .domain := by
  induction s with
  | nil =>
    obtain ⟨v, hv, -⟩ := h
    cases hv
  | cons v vs ih =>
    by_cases hv : v < 32
    · have hvs : ∃ v ∈ vs, 32 ≤ v := by
        obtain ⟨u, hu, hge⟩ := h
        obtain rfl | hu := List.mem_cons.mp hu
        · exact absurd hv (Nat.not_lt.mpr hge)
        · exact ⟨u, hu, hge⟩
      simp only [symbolsOfNats, symbolOfNat_ok hv, ih hvs]
    · simp only [symbolsOfNats, symbolOfNat_error hv]

theorem computeNat_ok {s : List Nat} (h : ∀ v ∈ s, v < 32) :
    computeNat s = .ok (compute (s.map (BitVec.ofNat 5))) := by
  simp only [computeNat, symbolsOfNats_ok h]

theorem computeNat_error {s : List Nat} (h : ∃ v ∈ s, 32 ≤ v) : computeNat s = .error .domain := by
  simp only [computeNat, symbolsOfNats_error h]

theorem computeNat_eq_error_iff (s : List Nat) : computeNat s = .error .domain ↔ ∃ v ∈ s, 32 ≤ v := by
  refine ⟨fun h => Classical.byContradiction fun hs => ?_, computeNat_error⟩
  have hlt : ∀ v ∈ s, v < 32 := fun v hv => Nat.lt_of_not_le fun hge => hs ⟨v, hv, hge⟩
  rw [computeNat_ok hlt] at h
  cases h

/-- A SymbolSequence written as numbers is computed as it is. -/
theorem computeNat_toNat (s : List Sym) : computeNat (s.map (·.toNat)) = .ok (compute s) := by
  have hlt : ∀ v ∈ s.map (·.toNat), v < 32 := List.forall_mem_map.mpr fun v _ => v.isLt
  have hback : (s.map (·.toNat)).map (BitVec.ofNat 5) = s := by
    rw [List.map_map]
    exact List.map_id'' (fun v => (BitVec.ofNat_toNat 5 v).trans (BitVec.setWidth_eq v)) s
  rw [computeNat_ok hlt, hback]

theorem encodeNat_error {x : Nat} (h : 2 ^ 40 ≤ x) : encodeNat x = .error .domain := by
  simp only [encodeNat, checksumOfNat_error (Nat.not_lt.mpr h)]

theorem encodeNat_toNat (x : Acc) : encodeNat x.toNat = .ok (encodeLanes x) := by
  simp only [encodeNat, checksumOfNat_ok x.isLt, BitVec.ofNat_toNat, BitVec.setWidth_eq]

/-- Settles O44: the refusals and the values of `compute` and of `encode` over numbers. -/
theorem boundaryRefusesAndNeverMasks : Obligations.BoundaryRefusesAndNeverMasks :=
  ⟨computeNat_eq_error_iff, fun _ => computeNat_ok, computeNat_toNat, fun _ => encodeNat_error, encodeNat_toNat⟩

end Sys2Proof.Machine
end

section
/-! Reset, idle edges and hazards: acts that leave the state they find, what an old value of `c` survives, and the
computation that `p_chk` shows (70_reset_and_hazards.md R160 to R167, R171, R172). -/

namespace Sys2Proof.Machine

open Sys2Proof.Safety (RunsTo)

/-- Acts that each leave the state alone leave it alone together. -/
theorem afterEvents_map_eq_self {α : Type} {act : α → HostEvent} {s : State} (h : ∀ a, afterEvent (act a) s = s)
    (l : List α) : afterEvents (l.map act) s = s := by
  induction l with
  | nil => rfl
  | cons a l ih => rw [List.map_cons, afterEvents_cons, h a, ih]

/-! ### Reset (70_reset_and_hazards.md R160, R161, R164) -/

/-- At an edge with `rst` = 1 the levels of `p_valid` and `p_cmd` play no part. -/
theorem step_reset {s : State} {v : Bool} {w : Cmd} {rest : List HostEvent} (h : s.inputs = .edge true v w :: rest) :
    step s = .next (resetUnitP (s.setInputs rest)) :=
  step_cons h

theorem pChk_resetUnitP (s : State) : (resetUnitP s).pChk = 0 := BitVec.xor_self

/-- A reset edge after a reset changes nothing, so that several are one. -/
theorem afterEvents_resets (s : State) {levels : List (Bool × Cmd)} (h : levels ≠ []) :
    afterEvents (levels.map fun l => .edge true l.1 l.2) s = resetUnitP s := by
  cases levels with
  | nil => exact absurd rfl h
  | cons l ls => exact afterEvents_map_eq_self (s := resetUnitP s) (fun _ => rfl) ls

/-- Settles O13: a reset edge writes the seed, which is `state([])`, as INIT does. -/
theorem resetWritesTheSeed : Obligations.ResetWritesTheSeed :=
  ⟨fun s _ _ rest h => ⟨resetUnitP (s.setInputs rest), step_reset h, rfl, pChk_resetUnitP _, rfl, exec_init _⟩,
    rfl, pChk_resetUnitP State.reset⟩

/-- Settles O14: one reset edge answers a state without the command, and several answer the same state. -/
theorem resetBeatsACommand : Obligations.ResetBeatsACommand := by
  refine ⟨fun s v v' w w' rest => (step_reset rfl).trans (step_reset rfl).symm, fun s levels rest hne => ?_⟩
  have hrun := runsTo_events (levels.map fun l => .edge true l.1 l.2) s rest
  rw [List.length_map, afterEvents_resets s hne] at hrun
  exact hrun

/-- Settles O17: a reset edge writes `c` only, and the lanes are a function of `e_in`. -/
theorem resetLeavesTheLanesAlone : Obligations.ResetLeavesTheLanesAlone :=
  fun s _ _ rest h => ⟨_, step_reset h, rfl, (s.setInputs rest).lanes_setC Config.seed⟩

/-! ### Idle edges and the end of a run (70_reset_and_hazards.md R162, R171, R172) -/

/-- The act is not an edge without command or reset. -/
def HostEvent.isBusy : HostEvent → Bool
  | .edge false false _ => false
  | _ => true

theorem afterEvent_of_not_isBusy (s : State) {ev : HostEvent} (h : ¬ ev.isBusy = true) : afterEvent ev s = s := by
  match ev with
  | .edge false false _ => rfl
  | .edge true _ _ => exact absurd rfl h
  | .edge false true _ => exact absurd rfl h
  | .drive _ => exact absurd rfl h

/-- Idle edges can be left out. -/
theorem afterEvents_filter_isBusy (evs : List HostEvent) (s : State) :
    afterEvents (evs.filter HostEvent.isBusy) s = afterEvents evs s :=
  foldl_filter_of_ignored (fun t _ => afterEvent_of_not_isBusy t) s evs

/-- Settles O15: each idle edge leaves the state alone. -/
theorem idleEdgesHoldTheAccumulator : Obligations.IdleEdgesHoldTheAccumulator := by
  intro s ws rest
  have hrun := runsTo_events (ws.map fun w => .edge false false w) s rest
  rw [List.length_map, afterEvents_map_eq_self fun _ => rfl] at hrun
  exact hrun

/-- Settles O20: the run with the idle edges left out ends in the state of the run with them. -/
theorem idleEdgesMayBeInsertedAnywhere : Obligations.IdleEdgesMayBeInsertedAnywhere := by
  intro s evs
  have hbusy := runsTo_all (evs.filter HostEvent.isBusy) s
  rw [afterEvents_filter_isBusy] at hbusy
  exact ⟨_, runsTo_all evs s, hbusy⟩

/-- Settles O16: a step with nothing presented answers the same state, and so does a run, by induction on its length. -/
theorem nothingPresentedHoldsTheState : Obligations.NothingPresentedHoldsTheState := by
  intro s n h
  induction n with
  | zero => exact runsTo_zero s
  | succ n ih => exact (runsTo_succ_iff (step_nil h) n s).mpr ih

/-! ### The unspecified value of `c` (70_reset_and_hazards.md R163) -/

/-- Two states that one step takes to the same state have the same runs from there on. -/
theorem runsTo_succ_congr {s s' t : State} (h : step s = .next t) (h' : step s' = .next t) (n : Nat) (u : State) :
    RunsTo (n + 1) s u ↔ RunsTo (n + 1) s' u :=
  (runsTo_succ_iff h n u).trans (runsTo_succ_iff h' n u).symm

theorem commandEffect_of_init {w : Cmd} (h : decode (.onCmd w) = .init) (c : Acc) :
    commandEffect c w = Config.seed := by
  obtain ⟨-, hc⟩ | ⟨v, hd, -⟩ := commandEffect_cases c w
  · exact hc
  · cases h.symm.trans hd

/-- A command word other than INIT absorbs its symbol, whatever `c` is. -/
theorem commandEffect_of_ne_init {w : Cmd} (h : decode (.onCmd w) ≠ .init) (c : Acc) :
    commandEffect c w = stepAcc c (Cmd.sym w) :=
  if_neg fun hop => h (decodeCmd_of_op hop)

theorem step_init {s : State} {w : Cmd} {rest : List HostEvent} (h : s.inputs = .edge false true w :: rest)
    (hw : decode (.onCmd w) = .init) : step s = .next ((s.setInputs rest).setC Config.seed) := by
  rw [step_cons h, afterEvent, commandEffect_of_init hw]

/-- The act is neither a reset nor an accepted INIT. -/
def HostEvent.KeepsComputation : HostEvent → Prop
  | .edge true _ _ => False
  | .edge false false _ => True
  | .edge false true w => decode (.onCmd w) ≠ .init
  | .drive _ => True

/-- Such an act merges no two accumulators: it leaves `c`, or steps it, which can be undone (40_polymod.md R92). -/
theorem accEffect_injective {ev : HostEvent} (h : ev.KeepsComputation) : Function.Injective (accEffect · ev) := by
  match ev with
  | .edge true _ _ => exact h.elim
  | .edge false false _ => exact Function.injective_id
  | .edge false true w =>
    intro a b hab
    have hsteps : stepAcc a (Cmd.sym w) = stepAcc b (Cmd.sym w) := by
      rw [← commandEffect_of_ne_init h, ← commandEffect_of_ne_init h]
      exact hab
    exact stepAcc_injective _ hsteps
  | .drive _ => exact Function.injective_id

theorem foldl_accEffect_injective {evs : List HostEvent} (h : ∀ ev ∈ evs, ev.KeepsComputation) :
    Function.Injective (evs.foldl accEffect) := by
  induction evs with
  | nil => exact Function.injective_id
  | cons ev evs ih =>
    obtain ⟨hev, hrest⟩ := List.forall_mem_cons.mp h
    exact (ih hrest).comp (accEffect_injective hev)

/-- Settles O22: INIT and reset take all values of `c` to the seed in one step, and every other act is injective in
`c`. -/
theorem onlyInitOrResetForgetsTheUnspecifiedValue : Obligations.OnlyInitOrResetForgetsTheUnspecifiedValue := by
  refine ⟨fun u u' e w rest n t hw => ?_, fun u u' e v w rest n t => ?_, fun u u' v hne => ?_,
    fun u u' e evs hevs hne => ?_⟩
  · have hstep (c : Acc) : step ⟨c, e, .edge false true w :: rest⟩ = .next ⟨Config.seed, e, rest⟩ := step_init rfl hw
    exact runsTo_succ_congr (hstep u) (hstep u') n t
  · have hstep (c : Acc) : step ⟨c, e, .edge true v w :: rest⟩ = .next ⟨Config.seed, e, rest⟩ := step_reset rfl
    exact runsTo_succ_congr (hstep u) (hstep u') n t
  · exact ⟨_, _, exec_absorb v _, exec_absorb v _, (stepAcc_injective v).ne hne⟩
  · refine ⟨_, _, runsTo_all evs ⟨u, e, []⟩, runsTo_all evs ⟨u', e, []⟩, ?_⟩
    rw [State.setInputs_c, State.setInputs_c, afterEvents_c, afterEvents_c]
    exact (foldl_accEffect_injective hevs).ne hne

/-! ### The computation that `p_chk` shows (70_reset_and_hazards.md R160, R166, R167) -/

/-- The record of the symbols follows the accumulator through any acts of the host. -/
theorem foldl_accEffect_stateOf (absorbed : List Sym) (evs : List HostEvent) :
    evs.foldl accEffect (stateOf absorbed) = stateOf (evs.foldl trackSymbols absorbed) :=
  List.foldl_hom stateOf accEffect_stateOf

/-- Settles O27: from reset, the record begins empty and follows every act. -/
theorem checksumPortAlwaysShowsTheComputationInProgress :
    Obligations.ChecksumPortAlwaysShowsTheComputationInProgress := by
  refine ⟨rfl, fun evs => ⟨_, runsTo_all evs State.reset, ?_⟩⟩
  have hc : (afterEvents evs State.reset).c = stateOf (evs.foldl trackSymbols []) :=
    (afterEvents_c evs State.reset).trans (foldl_accEffect_stateOf [] evs)
  rw [State.pChk_setInputs, State.pChk, hc, compute]

end Sys2Proof.Machine
end
